-- ==== Sys2Proof/Word.lean ====
section
/-! DEFINITION. The value types of the hash block (00_scope R10): bytes, words and byte strings. Every value is
unsigned; operations on them stand in Machine/Bytes.lean. -/

namespace Sys2Proof

/-- A byte is 8 bits (R10). -/
abbrev Byte := BitVec 8

/-- A word is 32 bits, unsigned (R10). -/
abbrev Word := BitVec 32

/-- A byte string, first byte first (R10, R12): payloads, responses, messages, blocks. -/
abbrev ByteString := List Byte

end Sys2Proof
end

