-- ==== Sys2Proof/Machine/Bytes.lean ====
section
/-! DEFINITION. The word operators (00_scope R11), the byte and word conversions (R12) and the block word loads
(20_memory R63, R64). -/

namespace Sys2Proof.Machine

/-- R11: `rotl(a, n)`, the left rotation of a word by `1 <= n <= 31`. -/
def rotl (a : Word) (n : Nat) : Word := (a <<< n) ||| (a >>> (32 - n))

/-- R12: `le32(b0, b1, b2, b3)`, the first byte least significant. -/
def le32 (b0 b1 b2 b3 : Byte) : Word := b3 ++ b2 ++ b1 ++ b0

/-- R12: `be32(b0, b1, b2, b3)`, the first byte most significant. -/
def be32 (b0 b1 b2 b3 : Byte) : Word := b0 ++ b1 ++ b2 ++ b3

/-- R12: `le32bytes(w)`. -/
def le32bytes (w : Word) : ByteString :=
  [w.extractLsb' 0 8, w.extractLsb' 8 8, w.extractLsb' 16 8, w.extractLsb' 24 8]

/-- R12: `be32bytes(w)`. -/
def be32bytes (w : Word) : ByteString :=
  [w.extractLsb' 24 8, w.extractLsb' 16 8, w.extractLsb' 8 8, w.extractLsb' 0 8]

/-- R12: `zeros(n)`. -/
def zeros (n : Nat) : ByteString := List.replicate n 0

/-- Byte `j` of a block. Every block the engine hands to a transform has 64 bytes (20_memory R76). -/
def blockByte (block : ByteString) (j : Nat) : Byte := block.getD j 0

/-- R63, R173: word `j` of a block in little-endian order. -/
def leWord (block : ByteString) (j : Nat) : Word :=
  le32 (blockByte block (4 * j)) (blockByte block (4 * j + 1)) (blockByte block (4 * j + 2)) (blockByte block (4 * j + 3))

/-- R64, R202: word `j` of a block in big-endian order. -/
def beWord (block : ByteString) (j : Nat) : Word :=
  be32 (blockByte block (4 * j)) (blockByte block (4 * j + 1)) (blockByte block (4 * j + 2)) (blockByte block (4 * j + 3))

end Sys2Proof.Machine
end

