-- ==== Sys2Proof/Config.lean ====
section
/-! DEFINITION. What an implementation fixes (NCTX and ACC_CAP, 00_scope R7) and the free values of the model: the
contents the spec leaves unspecified after a hardware reset (10_state R41, 70_reset R302). -/

namespace Sys2Proof

/-- The parameters fixed when the hardware is built (R7, R40). DESIGN CHOICE (log 2): they are carried in the state,
where no step changes them, so that every statement holds for every choice of them. -/
structure Params where
  /-- NCTX, the number of digest context slots, 1 to 16 (R7, D5). -/
  nctx : Nat
  /-- ACC_CAP, the capacity of the HMAC accumulator in bytes; none is `unbounded` (R7, D8). -/
  accCap : Option Nat
  deriving DecidableEq, Repr

/-- R7: `1 <= NCTX <= 16`, and ACC_CAP is a positive integer or unbounded. -/
def Params.legal (p : Params) : Bool :=
  decide (1 ≤ p.nctx) && decide (p.nctx ≤ 16) && (p.accCap.all fun cap => decide (1 ≤ cap))

/-- NCTX has the default 2 (R7); ACC_CAP is open, and the model's default is `unbounded` (DESIGN CHOICE, log 2), the
value the spec's own vectors take (95_test_vectors). -/
def Params.usual : Params := { nctx := 2, accCap := none }

/-- LEN_MAX, the largest payload of one command in bytes (R7). -/
def lenMax : Nat := 65535

/-- FREE VALUE (log 7): the word that storage location `index` of storage group `group` holds after the hardware reset
number `draw` of a run. The spec gives no value (R41, R302), so none can be proved here. -/
opaque Config.freeWord (draw group index : Nat) : BitVec 32

/-- FREE VALUE (log 8): what byte `index` of the accumulator reads as after hardware reset number `draw` while no
command has written it (R41: ACC is unspecified). -/
opaque Config.accUnwritten (draw index : Nat) : BitVec 8

end Sys2Proof
end

