-- ==== Sys2Proof/Syntax.lean ====
section
/-! DEFINITION. The ten host commands, one constructor per row of spec/opcode_table.json (30_encoding R95). -/

namespace Sys2Proof

/-- The algorithm selector: `ALG = 0` is MD5, `ALG = 1` is SHA-1 (00_scope R6). -/
inductive Alg where
  | md5
  | sha1
  deriving DecidableEq, Repr

/-- A command as its command word gives it (R95). The payload of a data command is no part of the word: it comes with
the transaction (R90), and the state holds it. Context numbers are the 4-bit fields CTX and CTX2; a payload length
counts bytes (R94), and only lengths up to LEN_MAX can be encoded (WellFormed). -/
inductive Instr where
  /-- `D_INIT c<k>, <alg>` (R140). -/
  | dInit (ctx : BitVec 4) (alg : Alg)
  /-- `D_RESET c<k>` (R141). -/
  | dReset (ctx : BitVec 4)
  /-- `D_UPDATE c<k>, <payload of len bytes>` (R142). -/
  | dUpdate (ctx : BitVec 4) (len : Nat)
  /-- `D_DIGEST c<k>` (R143). -/
  | dDigest (ctx : BitVec 4)
  /-- `D_CLONE c<dst>, c<src>` (R144). -/
  | dClone (dst src : BitVec 4)
  /-- `D_LEN c<k>` (R145). -/
  | dLen (ctx : BitVec 4)
  /-- `H_KEY <alg>, <key of len bytes>` (R234). -/
  | hKey (alg : Alg) (len : Nat)
  /-- `H_RESET` (R235). -/
  | hReset
  /-- `H_UPDATE <payload of len bytes>` (R236). -/
  | hUpdate (len : Nat)
  /-- `H_DIGEST` (R240). -/
  | hDigest
  deriving DecidableEq, Repr

end Sys2Proof
end

