-- ==== Sys2Proof/Machine/State.lean ====
section
/-! DEFINITION. The architectural state of the hash block (10_state R20 to R41) and its ports (30_encoding R90), the
state after hardware reset, and the reasons the model stops. -/

namespace Sys2Proof.Machine

/-- A byte memory as (index, byte) cells, indexes strictly rising; an index that is not listed holds no value
(`Memory.wf` in Machine/Ops.lean). Used for ACC, whose size is a parameter (20_memory R60). -/
abbrev Memory := List Host.Cell

/-- A digest context (R20). -/
structure Context where
  /-- VALID (R21). -/
  valid : Bool
  /-- ALG (R22). -/
  alg : Alg
  /-- BUF[0..63], the pending-block buffer (R23). -/
  buf : Vector Byte 64
  /-- FI, the fill index, 7 bits (R24). -/
  fi : BitVec 7
  /-- BC_LO, low half of the processed-block counter (R25). -/
  bcLo : Word
  /-- BC_HI, high half of the processed-block counter (R25). -/
  bcHi : Word
  /-- H[0..4], the working words (R26). -/
  h : Vector Word 5
  deriving DecidableEq, Repr

/-- The transient registers of the MD5 unit (R32). -/
structure Md5Unit where
  a : Word
  b : Word
  c : Word
  d : Word
  /-- The block words X[0..15]. -/
  x : Vector Word 16
  /-- The step index i, 6 bits. -/
  i : BitVec 6
  deriving DecidableEq, Repr

/-- The transient registers of the SHA-1 unit (R33). -/
structure Sha1Unit where
  a : Word
  b : Word
  c : Word
  d : Word
  e : Word
  /-- The schedule W[0..79]. -/
  w : Vector Word 80
  /-- The step index t, 7 bits. -/
  t : BitVec 7
  deriving DecidableEq, Repr

/-- The sequencer state at a command boundary (R34). R34 lets a model omit every state but these two (log 1).
`STATUS.FAULT` is 1 exactly in `faulted` (R270, R273) and is stored here once. -/
inductive Seq where
  | idle
  | faulted
  deriving DecidableEq, Repr

/-- The eight fault codes of the block (60_exceptions R261). -/
inductive FaultCode where
  /-- F_ILLEGAL_OPC (R262). -/
  | illegalOpc
  /-- F_RESERVED (R263). -/
  | reserved
  /-- F_LEN (R264). -/
  | len
  /-- F_BAD_CTX (R265). -/
  | badCtx
  /-- F_CTX_INVALID (R266). -/
  | ctxInvalid
  /-- F_HMAC_UNKEYED (R267). -/
  | hmacUnkeyed
  /-- F_ACC_OVERFLOW (R268). -/
  | accOverflow
  /-- F_HMAC_DIGEST_TOO_LONG (R269). -/
  | hmacDigestTooLong
  deriving DecidableEq, Repr

/-- A command transaction `(CW, P)` (R90). -/
structure Transaction where
  cw : Word
  payload : ByteString
  deriving DecidableEq, Repr

/-- The code of a response (R90). -/
inductive RspCode where
  | ok
  | fault
  deriving DecidableEq, Repr

/-- A response `(code, R)` (R90). -/
structure Response where
  code : RspCode
  bytes : ByteString
  deriving DecidableEq, Repr

/-- What the host may do to the block (00_scope R8): nothing else reaches it (log 4). -/
inductive HostAct where
  /-- Present a command transaction at CMD (R90). -/
  | command (t : Transaction)
  /-- Present a command transaction and assert RST while it runs: it is abandoned, with no response (R300). -/
  | commandAbandoned (t : Transaction)
  /-- Assert RST between commands (R300). -/
  | reset
  /-- `StatRead(n)` at STAT (R101). -/
  | statRead (n : Nat)
  deriving DecidableEq, Repr

/-- The state of the block and its ports. Plain data. INVENTORY.md lists each field with its rule and reset value. -/
structure State where
  /-- NCTX and ACC_CAP, fixed when the hardware is built (R7, R40; log 2). -/
  params : Params
  /-- The host's acts not yet carried out, oldest first (R8, R90; log 4). -/
  pending : List HostAct
  /-- The transaction the block accepted last at CMD (R90; log 5). -/
  cmd : Transaction
  /-- The responses given at RSP, oldest first (R90, R93; log 5). -/
  rsp : List Response
  /-- The values status reads returned at STAT, oldest first (R101; log 5). -/
  stat : List Word
  /-- SEQ, and with it STATUS.FAULT (R34, R37). -/
  seq : Seq
  /-- STATUS.CAUSE, 8 bits (R37). -/
  cause : BitVec 8
  /-- FINFO, 32 bits (R37). -/
  finfo : Word
  /-- CTX[0..15], of which the first NCTX exist (R20; log 3). -/
  ctx : Vector Context 16
  /-- HC, the context the HMAC core owns (R30). -/
  hc : Context
  /-- SH, the shadow context (R31). -/
  sh : Context
  /-- KIPAD[0..63] (R27, R28). -/
  kipad : Vector Byte 64
  /-- KOPAD[0..63] (R27, R28). -/
  kopad : Vector Byte 64
  /-- ACC, the message accumulator, dead bytes included (R27, R29). -/
  acc : Memory
  /-- ACC_LEN, the number of valid bytes in ACC (R27). -/
  accLen : Nat
  /-- KEYED (R27). -/
  keyed : Bool
  /-- HALG (R27). -/
  halg : Alg
  /-- The MD5 unit's transient registers (R32). -/
  md5 : Md5Unit
  /-- The SHA-1 unit's transient registers (R33). -/
  sha1 : Sha1Unit
  /-- The MODEL's own counter: how many hardware resets have drawn free values (log 7). -/
  draws : Nat
  deriving DecidableEq, Repr

/-- Why a step of the model ends with no next state and no refusal. There is no such reason: every fault of this
hardware is an outcome with a next state, the FAULTED sequencer state (60_exceptions R270, R284; log 15), and every
command terminates (70_reset R315). No constructor, so that `Outcome.fault` cannot be answered. Safe. -/
inductive Fault where
  deriving DecidableEq, Repr

/-- Why the model refuses. -/
inductive Refusal where
  /-- Answered by an arm of `exec` whose command has no meaning yet. No arm answers it. Safe. -/
  | notModelled (mnemonic : String)
  /-- Raised by the meanings of D_UPDATE and D_DIGEST on a valid context whose FI is 64 or more: a BUF access out of
  range, which has no defined behaviour and is to be a refusal (20_memory R62). No run from reset reaches such a
  context (10_state R24; log 9). Safe. -/
  | bufIndexOutOfRange
  /-- Raised by the meaning of H_DIGEST on a keyed core whose ACC_LEN is more than ACC_CAP: an ACC read out of range,
  which has no defined behaviour and is to be a refusal (20_memory R62). No run from reset reaches such a state
  (10_state R27; log 9). Safe. -/
  | accIndexOutOfRange
  deriving DecidableEq, Repr

/-- DESIGN CHOICE (log 6): a context as State.reset holds it. VALID is 0 (R41); R41 gives no value for the rest, and
the model names zero and MD5. -/
def Context.reset : Context where
  valid := false
  alg := .md5
  buf := Vector.replicate 64 0
  fi := 0
  bcLo := 0
  bcHi := 0
  h := Vector.replicate 5 0

/-- DESIGN CHOICE (log 6): R41 gives the MD5 unit's transients no value; the model names zero. -/
def Md5Unit.reset : Md5Unit where
  a := 0
  b := 0
  c := 0
  d := 0
  x := Vector.replicate 16 0
  i := 0

/-- DESIGN CHOICE (log 6): R41 gives the SHA-1 unit's transients no value; the model names zero. -/
def Sha1Unit.reset : Sha1Unit where
  a := 0
  b := 0
  c := 0
  d := 0
  e := 0
  w := Vector.replicate 80 0
  t := 0

/-- The state right after hardware reset (R41, R300): every VALID, KEYED, ACC_LEN, STATUS, FINFO and CTXV are 0 and SEQ
is IDLE. Where R41 gives no value the model names one (log 6); ACC lists no byte (log 8). -/
def State.reset : State where
  params := Params.usual
  pending := []
  cmd := { cw := 0, payload := [] }
  rsp := []
  stat := []
  seq := .idle
  cause := 0
  finfo := 0
  ctx := Vector.replicate 16 Context.reset
  hc := Context.reset
  sh := Context.reset
  kipad := Vector.replicate 64 0
  kopad := Vector.replicate 64 0
  acc := []
  accLen := 0
  keyed := false
  halg := .md5
  md5 := Md5Unit.reset
  sha1 := Sha1Unit.reset
  draws := 0

end Sys2Proof.Machine
end

