-- ==== Sys2Proof/Machine/Md5.lean ====
section
/-! DEFINITION. The MD5 compression unit, the 64-step transform (41_md5_compression R170 to R182). -/

namespace Sys2Proof.Machine

/-- R171: the MD5 initial values, loaded into `H[0..3]`; `H[4]` is written 0 (10_state R26). -/
def md5Iv : Vector Word 5 :=
  #v[0x67452301, 0xEFCDAB89, 0x98BADCFE, 0x10325476, 0x00000000]

/-- R174, round 1: if `x` then `y` else `z`, bit by bit. -/
def md5F (x y z : Word) : Word := (x &&& y) ||| (~~~x &&& z)

/-- R175, round 2: if `z` then `x` else `y`, bit by bit. -/
def md5G (x y z : Word) : Word := (x &&& z) ||| (y &&& ~~~z)

/-- R176, round 3 (`Hx`). -/
def md5H (x y z : Word) : Word := x ^^^ y ^^^ z

/-- R177, round 4. -/
def md5I (x y z : Word) : Word := y ^^^ (x ||| ~~~z)

/-- R178: `T[0..15]`. -/
def md5T1 : List Word :=
  [0xD76AA478, 0xE8C7B756, 0x242070DB, 0xC1BDCEEE, 0xF57C0FAF, 0x4787C62A, 0xA8304613, 0xFD469501,
   0x698098D8, 0x8B44F7AF, 0xFFFF5BB1, 0x895CD7BE, 0x6B901122, 0xFD987193, 0xA679438E, 0x49B40821]

/-- R178: `T[16..31]`. -/
def md5T2 : List Word :=
  [0xF61E2562, 0xC040B340, 0x265E5A51, 0xE9B6C7AA, 0xD62F105D, 0x02441453, 0xD8A1E681, 0xE7D3FBC8,
   0x21E1CDE6, 0xC33707D6, 0xF4D50D87, 0x455A14ED, 0xA9E3E905, 0xFCEFA3F8, 0x676F02D9, 0x8D2A4C8A]

/-- R178: `T[32..47]`. -/
def md5T3 : List Word :=
  [0xFFFA3942, 0x8771F681, 0x6D9D6122, 0xFDE5380C, 0xA4BEEA44, 0x4BDECFA9, 0xF6BB4B60, 0xBEBFBC70,
   0x289B7EC6, 0xEAA127FA, 0xD4EF3085, 0x04881D05, 0xD9D4D039, 0xE6DB99E5, 0x1FA27CF8, 0xC4AC5665]

/-- R178: `T[48..63]`. -/
def md5T4 : List Word :=
  [0xF4292244, 0x432AFF97, 0xAB9423A7, 0xFC93A039, 0x655B59C3, 0x8F0CCC92, 0xFFEFF47D, 0x85845DD1,
   0x6FA87E4F, 0xFE2CE6E0, 0xA3014314, 0x4E0811A1, 0xF7537E82, 0xBD3AF235, 0x2AD7D2BB, 0xEB86D391]

/-- R178: the additive constants `T[0..63]`, a fixed table. -/
def md5T : List Word := md5T1 ++ md5T2 ++ md5T3 ++ md5T4

/-- R174 to R177: the boolean function of step `i`. -/
def md5Fun (i : Nat) (x y z : Word) : Word :=
  if i ≤ 15 then md5F x y z
  else if i ≤ 31 then md5G x y z
  else if i ≤ 47 then md5H x y z
  else md5I x y z

/-- R179: the rotation amount `s(i)`, entry `i mod 4` of the list of the step's round. -/
def md5Shift (i : Nat) : Nat :=
  if i ≤ 15 then [7, 12, 17, 22].getD (i % 4) 0
  else if i ≤ 31 then [5, 9, 14, 20].getD (i % 4) 0
  else if i ≤ 47 then [4, 11, 16, 23].getD (i % 4) 0
  else [6, 10, 15, 21].getD (i % 4) 0

/-- R180: the word-selection index `k(i)`, below 16. -/
def md5Index (i : Nat) : Fin 16 :=
  if i ≤ 15 then Fin.ofNat 16 i
  else if i ≤ 31 then Fin.ofNat 16 (5 * i + 1)
  else if i ≤ 47 then Fin.ofNat 16 (3 * i + 5)
  else Fin.ofNat 16 (7 * i)

/-- R172, R173: the unit with the block words loaded and the chaining value copied into `a, b, c, d`. -/
def md5Load (h : Vector Word 5) (block : ByteString) : Md5Unit where
  a := h[0]
  b := h[1]
  c := h[2]
  d := h[3]
  x := Vector.ofFn fun j => leWord block j
  i := 0

/-- R172: step `i`, all four registers written at once from the old values. -/
def md5Step (u : Md5Unit) (i : Nat) : Md5Unit :=
  let f := md5Fun i u.b u.c u.d
  let tmp := u.a + f + u.x[md5Index i] + md5T.getD i 0
  { u with a := u.d, b := u.b + rotl tmp (md5Shift i), c := u.b, d := u.c, i := BitVec.ofNat 6 i }

/-- R172: the unit after steps 0 to 63. -/
def md5Run (h : Vector Word 5) (block : ByteString) : Md5Unit :=
  (List.range 64).foldl md5Step (md5Load h block)

/-- R181: the feed-forward addition into `H[0..3]`; no MD5 rule writes `H[4]` (10_state R26). -/
def md5Add (h : Vector Word 5) (u : Md5Unit) : Vector Word 5 :=
  #v[h[0] + u.a, h[1] + u.b, h[2] + u.c, h[3] + u.d, h[4]]

/-- R170, R172: `MD5_Transform(h, B)`, on the five-word layout of a context. -/
def md5Transform (h : Vector Word 5) (block : ByteString) : Vector Word 5 :=
  md5Add h (md5Run h block)

end Sys2Proof.Machine
end

