-- ==== Sys2Proof/WellFormed.lean ====
section
/-! DEFINITION. Which commands a command word can carry: the LEN field holds 0 to LEN_MAX = 65535 bytes (00_scope R7,
30_encoding R91). Every other operand is typed at its field's width. -/

namespace Sys2Proof

/-- R91: LEN is 16 bits wide, so a payload length is at most LEN_MAX. -/
def Instr.lenFits (len : Nat) : Bool := decide (len ≤ lenMax)

/-- A command has an encoding exactly when its payload length fits the LEN field. -/
def Instr.wf : Instr → Bool
  | .dInit _ _ => true
  | .dReset _ => true
  | .dUpdate _ len => Instr.lenFits len
  | .dDigest _ => true
  | .dClone _ _ => true
  | .dLen _ => true
  | .hKey _ len => Instr.lenFits len
  | .hReset => true
  | .hUpdate len => Instr.lenFits len
  | .hDigest => true

end Sys2Proof
end

