-- ==== Sys2Proof/Decode.lean ====
section
/-! DEFINITION. The command word (30_encoding R91, R94), its decoder (R95 to R97) and its encoder (R95). -/

namespace Sys2Proof

/-- The six fields of a command word (R91). -/
@[ext] structure Fields where
  /-- bits 31:16, payload length in bytes. -/
  len : BitVec 16
  /-- bits 15:13, reserved. -/
  mbz : BitVec 3
  /-- bit 12, algorithm. -/
  alg : BitVec 1
  /-- bits 11:8, second context number. -/
  ctx2 : BitVec 4
  /-- bits 7:4, context number. -/
  ctx : BitVec 4
  /-- bits 3:0, opcode. -/
  opc : BitVec 4
  deriving DecidableEq, Repr

/-- R94: `OPC = CW[3:0]`, `CTX = CW[7:4]`, `CTX2 = CW[11:8]`, `ALG = CW[12]`, `MBZ = CW[15:13]`, `LEN = CW[31:16]`. -/
def fieldsOf (cw : Word) : Fields where
  len := cw.extractLsb' 16 16
  mbz := cw.extractLsb' 13 3
  alg := cw.extractLsb' 12 1
  ctx2 := cw.extractLsb' 8 4
  ctx := cw.extractLsb' 4 4
  opc := cw.extractLsb' 0 4

/-- The word with the given fields in the layout of R91, most significant field first. -/
def wordOf (f : Fields) : Word :=
  f.len ++ f.mbz ++ f.alg ++ f.ctx2 ++ f.ctx ++ f.opc

/-- R6: `ALG = 0` is MD5, `ALG = 1` is SHA-1. -/
def algOfBit (b : BitVec 1) : Alg := if b = 0#1 then .md5 else .sha1

/-- R6: the ALG bit of an algorithm. -/
def algBit : Alg → BitVec 1
  | .md5 => 0#1
  | .sha1 => 1#1

/-- What a command word is (R97): one command, or no command for one of two named reasons. -/
inductive Decoded where
  /-- A well formed command (R95). -/
  | command (i : Instr)
  /-- OPC names no command: F_ILLEGAL_OPC (R97, R262). -/
  | illegalOpc
  /-- OPC names a command and a must-be-zero field is not zero: F_RESERVED (R96, R263). -/
  | reserved
  deriving DecidableEq, Repr

/-- The command `i`, provided its must-be-zero fields are all zero (R96). -/
def whenZero (mustBeZero : Bool) (i : Instr) : Decoded :=
  if mustBeZero then .command i else .reserved

/-- The decoder (R95 to R97), total on the `2^32` words. MBZ must be zero in every command; CTX2 in all but D_CLONE;
ALG in all but D_INIT and H_KEY; CTX in the H_ commands; LEN in all but D_UPDATE, H_KEY and H_UPDATE (R96). -/
def decode (cw : Word) : Decoded :=
  let f := fieldsOf cw
  match f.opc.toNat with
  | 1 => whenZero (f.ctx2 == 0 && f.mbz == 0 && f.len == 0) (.dInit f.ctx (algOfBit f.alg))
  | 2 => whenZero (f.ctx2 == 0 && f.alg == 0 && f.mbz == 0 && f.len == 0) (.dReset f.ctx)
  | 3 => whenZero (f.ctx2 == 0 && f.alg == 0 && f.mbz == 0) (.dUpdate f.ctx f.len.toNat)
  | 4 => whenZero (f.ctx2 == 0 && f.alg == 0 && f.mbz == 0 && f.len == 0) (.dDigest f.ctx)
  | 5 => whenZero (f.alg == 0 && f.mbz == 0 && f.len == 0) (.dClone f.ctx f.ctx2)
  | 6 => whenZero (f.ctx2 == 0 && f.alg == 0 && f.mbz == 0 && f.len == 0) (.dLen f.ctx)
  | 7 => whenZero (f.ctx == 0 && f.ctx2 == 0 && f.mbz == 0) (.hKey (algOfBit f.alg) f.len.toNat)
  | 8 => whenZero (f.ctx == 0 && f.ctx2 == 0 && f.alg == 0 && f.mbz == 0 && f.len == 0) .hReset
  | 9 => whenZero (f.ctx == 0 && f.ctx2 == 0 && f.alg == 0 && f.mbz == 0) (.hUpdate f.len.toNat)
  | 10 => whenZero (f.ctx == 0 && f.ctx2 == 0 && f.alg == 0 && f.mbz == 0 && f.len == 0) .hDigest
  | _ => .illegalOpc

/-- The fields of a command's word (R95): the fields it does not use are zero. -/
def fieldsOfInstr : Instr → Fields
  | .dInit c a => ⟨0, 0, algBit a, 0, c, 0x1⟩
  | .dReset c => ⟨0, 0, 0, 0, c, 0x2⟩
  | .dUpdate c n => ⟨BitVec.ofNat 16 n, 0, 0, 0, c, 0x3⟩
  | .dDigest c => ⟨0, 0, 0, 0, c, 0x4⟩
  | .dClone d s => ⟨0, 0, 0, s, d, 0x5⟩
  | .dLen c => ⟨0, 0, 0, 0, c, 0x6⟩
  | .hKey a n => ⟨BitVec.ofNat 16 n, 0, algBit a, 0, 0, 0x7⟩
  | .hReset => ⟨0, 0, 0, 0, 0, 0x8⟩
  | .hUpdate n => ⟨BitVec.ofNat 16 n, 0, 0, 0, 0, 0x9⟩
  | .hDigest => ⟨0, 0, 0, 0, 0, 0xA⟩

/-- The command word of a well formed command (R95). -/
def encode (i : Instr) : Word := wordOf (fieldsOfInstr i)

/-- The match value of a command's row of the opcode table (R95). -/
def rowMatch : Instr → Word
  | .dInit _ _ => 0x00000001
  | .dReset _ => 0x00000002
  | .dUpdate _ _ => 0x00000003
  | .dDigest _ => 0x00000004
  | .dClone _ _ => 0x00000005
  | .dLen _ => 0x00000006
  | .hKey _ _ => 0x00000007
  | .hReset => 0x00000008
  | .hUpdate _ => 0x00000009
  | .hDigest => 0x0000000A

/-- The mask of a command's row of the opcode table (R95). -/
def rowMask : Instr → Word
  | .dInit _ _ => 0xFFFFEF0F
  | .dReset _ => 0xFFFFFF0F
  | .dUpdate _ _ => 0x0000FF0F
  | .dDigest _ => 0xFFFFFF0F
  | .dClone _ _ => 0xFFFFF00F
  | .dLen _ => 0xFFFFFF0F
  | .hKey _ _ => 0x0000EFFF
  | .hReset => 0xFFFFFFFF
  | .hUpdate _ => 0x0000FFFF
  | .hDigest => 0xFFFFFFFF

/-- The match and mask columns of the opcode table, in the order of R95. -/
def opcodeRows : List (Word × Word) :=
  [(0x00000001, 0xFFFFEF0F), (0x00000002, 0xFFFFFF0F), (0x00000003, 0x0000FF0F), (0x00000004, 0xFFFFFF0F),
   (0x00000005, 0xFFFFF00F), (0x00000006, 0xFFFFFF0F), (0x00000007, 0x0000EFFF), (0x00000008, 0xFFFFFFFF),
   (0x00000009, 0x0000FFFF), (0x0000000A, 0xFFFFFFFF)]

/-- The command a decoder result holds, if it is one. -/
def Decoded.instr? : Decoded → Option Instr
  | .command i => some i
  | .illegalOpc => none
  | .reserved => none

/-- The command word in the table's bit numbering: `w` cut to its `nbits` low bits, as one 32-bit command word. -/
def tableWord (nbits w : Nat) : Word := BitVec.ofNat 32 (w % 2 ^ nbits)

/-- What the decoder reads from an opcode-table row's word. Every command is one 32-bit word (R98), so there is nothing
above bit 31. -/
def decodeTableWord (nbits w : Nat) : Option Instr :=
  if w % 2 ^ nbits < 2 ^ 32 then (decode (tableWord nbits w)).instr? else none

end Sys2Proof
end

