-- ==== Sys2Proof/Machine/Ops.lean ====
section
/-! DEFINITION. The named operations over the memories and registers (20_memory R60 to R62), the responses
(30_encoding R93), taking a fault (60_exceptions R270) and hardware reset, the only way out of a fault (R274, 70_reset
R300). -/

namespace Sys2Proof.Machine

/-! ### The accumulator memory -/

/-- The canonical form of a memory: cells in strictly rising order of index. -/
def Memory.wf : Memory → Bool
  | [] => true
  | [_] => true
  | c :: d :: m => decide (c.1 < d.1) && Memory.wf (d :: m)

/-- The byte at index `i`, if one has been written there. -/
def Memory.read? (m : Memory) (i : Nat) : Option Byte := m.lookup i

/-- Write byte `b` at index `i`, keeping the canonical form. -/
def Memory.write : Memory → Nat → Byte → Memory
  | [], i, b => [(i, b)]
  | c :: m, i, b =>
    if i < c.1 then (i, b) :: c :: m
    else if i = c.1 then (i, b) :: m
    else c :: Memory.write m i b

/-- R62: `MemWrite(ACC, i, len(s), s)`. -/
def Memory.writeBytes (m : Memory) (i : Nat) : ByteString → Memory
  | [] => m
  | b :: bs => Memory.writeBytes (m.write i b) (i + 1) bs

/-! ### The 64-byte memories -/

/-- R62: `MemRead(MEM, j, n)` on BUF, KIPAD or KOPAD. -/
def memRead (mem : Vector Byte 64) (j n : Nat) : ByteString := (mem.toList.drop j).take n

/-- R62: `MemWrite(MEM, j, len(s), s)` on BUF, KIPAD or KOPAD. The callers keep `j + len(s) <= 64`. -/
def memWrite (mem : Vector Byte 64) (j : Nat) : ByteString → Vector Byte 64
  | [] => mem
  | b :: bs => memWrite (mem.setIfInBounds j b) (j + 1) bs

/-! ### Registers -/

/-- `CTX[k]` (10_state R20). -/
def State.getCtx (s : State) (k : BitVec 4) : Context := s.ctx[k.toNat]'k.isLt

/-- `CTX[k] <- c` (10_state R20). -/
def State.setCtx (s : State) (k : BitVec 4) (c : Context) : State :=
  { s with ctx := s.ctx.set k.toNat c k.isLt }

/-- Byte `i` of ACC. FREE VALUE where no command has written it (R41, log 8). -/
def State.accByte (s : State) (i : Nat) : Byte :=
  (s.acc.read? i).getD (Config.accUnwritten s.draws i)

/-- `ACC[0 .. ACC_LEN-1]`, the whole message fed so far (10_state R29). -/
def State.accMessage (s : State) : ByteString := (List.range s.accLen).map s.accByte

/-- R236: `MemWrite(ACC, ACC_LEN, LEN, P)`; `ACC_LEN <- ACC_LEN + LEN`. -/
def State.appendAcc (s : State) (p : ByteString) : State :=
  { s with acc := s.acc.writeBytes s.accLen p, accLen := s.accLen + p.length }

/-! ### Responses -/

/-- Give the response `(OK, r)` (R93). -/
def State.respond (s : State) (r : ByteString) : State :=
  { s with rsp := s.rsp ++ [{ code := .ok, bytes := r }] }

/-- Give the response `(FAULT, empty)` (R93). -/
def State.respondFault (s : State) : State :=
  { s with rsp := s.rsp ++ [{ code := .fault, bytes := [] }] }

/-! ### Taking a fault, and hardware reset -/

/-- R261: the number of a fault code, as CAUSE records it. -/
def FaultCode.number : FaultCode → BitVec 8
  | .illegalOpc => 0x01
  | .reserved => 0x02
  | .len => 0x03
  | .badCtx => 0x04
  | .ctxInvalid => 0x05
  | .hmacUnkeyed => 0x06
  | .accOverflow => 0x07
  | .hmacDigestTooLong => 0x08

/-- R270, fault entry: `STATUS.FAULT <- 1` and `SEQ <- FAULTED` (one field, log 1), `STATUS.CAUSE <- code`,
`FINFO <- CW`, the response is `(FAULT, empty)`, and nothing else changes. -/
def State.takeFault (s : State) (code : FaultCode) : State :=
  { s with seq := .faulted, cause := code.number, finfo := s.cmd.cw }.respondFault

/-- FREE VALUES (log 7): a context after hardware reset number `draw`. VALID is 0 (R21, R41); every other bit is
unspecified. `group` tells the contexts apart. -/
def Context.afterReset (draw group : Nat) : Context where
  valid := false
  alg := algOfBit ((Config.freeWord draw group 0).setWidth 1)
  buf := Vector.ofFn fun j => (Config.freeWord draw group (16 + j.val)).setWidth 8
  fi := (Config.freeWord draw group 1).setWidth 7
  bcLo := Config.freeWord draw group 2
  bcHi := Config.freeWord draw group 3
  h := Vector.ofFn fun j => Config.freeWord draw group (8 + j.val)

/-- FREE VALUES (log 7): a 64-byte memory after hardware reset number `draw`. -/
def padAfterReset (draw group : Nat) : Vector Byte 64 :=
  Vector.ofFn fun j => (Config.freeWord draw group j.val).setWidth 8

/-- FREE VALUES (log 7): the MD5 unit after hardware reset number `draw`. -/
def Md5Unit.afterReset (draw group : Nat) : Md5Unit where
  a := Config.freeWord draw group 0
  b := Config.freeWord draw group 1
  c := Config.freeWord draw group 2
  d := Config.freeWord draw group 3
  x := Vector.ofFn fun j => Config.freeWord draw group (16 + j.val)
  i := (Config.freeWord draw group 4).setWidth 6

/-- FREE VALUES (log 7): the SHA-1 unit after hardware reset number `draw`. -/
def Sha1Unit.afterReset (draw group : Nat) : Sha1Unit where
  a := Config.freeWord draw group 0
  b := Config.freeWord draw group 1
  c := Config.freeWord draw group 2
  d := Config.freeWord draw group 3
  e := Config.freeWord draw group 4
  w := Vector.ofFn fun j => Config.freeWord draw group (16 + j.val)
  t := (Config.freeWord draw group 5).setWidth 7

/-- R300, hardware reset in a run: VALID, KEYED, ACC_LEN, STATUS, FINFO are 0 and SEQ is IDLE; every bit R41 leaves
unspecified takes a free value (log 7), since the old contents must be treated as gone (R302); no byte of ACC is
written (log 8). The parameters are fixed (R40), and what the host has yet to do, was answered and has read is the
host's. The CMD port holds no transaction (log 5). -/
def State.hardwareReset (s : State) : State :=
  { params := s.params
    pending := s.pending
    cmd := State.reset.cmd
    rsp := s.rsp
    stat := s.stat
    seq := .idle
    cause := 0
    finfo := 0
    ctx := Vector.ofFn fun k => Context.afterReset (s.draws + 1) k.val
    hc := Context.afterReset (s.draws + 1) 16
    sh := Context.afterReset (s.draws + 1) 17
    kipad := padAfterReset (s.draws + 1) 18
    kopad := padAfterReset (s.draws + 1) 19
    acc := []
    accLen := 0
    keyed := false
    halg := algOfBit ((Config.freeWord (s.draws + 1) 20 0).setWidth 1)
    md5 := Md5Unit.afterReset (s.draws + 1) 21
    sha1 := Sha1Unit.afterReset (s.draws + 1) 22
    draws := s.draws + 1 }

end Sys2Proof.Machine
end

