-- ==== Sys2Proof/Machine/Operands.lean ====
section
/-! DEFINITION. The operand forms of the commands (payload, context number, context contents, key, accumulator room)
and the checks on them, made in the order of 60_exceptions R271 before any state change (R272). -/

namespace Sys2Proof.Machine

/-- R6: `digestLen`, the digest length in words. -/
def digestWords : Alg → Nat
  | .md5 => 4
  | .sha1 => 5

/-- R6: `DL`, the digest length in bytes, `digestLen * 4`. -/
def digestBytes (alg : Alg) : Nat := 4 * digestWords alg

/-- R264: the transaction's payload does not have the announced length `len` (0 for the commands that carry none). -/
def State.badPayload (s : State) (len : Nat) : Bool := s.cmd.payload.length != len

/-- R265: a context number is NCTX or more. -/
def State.badCtx (s : State) (k : BitVec 4) : Bool := decide (s.params.nctx ≤ k.toNat)

/-- R266: the context a command reads has `VALID = 0`. -/
def State.invalidCtx (s : State) (k : BitVec 4) : Bool := !(s.getCtx k).valid

/-- R267: `KEYED = 0`. -/
def State.unkeyed (s : State) : Bool := !s.keyed

/-- R268: `ACC_LEN + LEN > ACC_CAP`; never, when ACC_CAP is unbounded. -/
def State.accFull (s : State) (len : Nat) : Bool :=
  s.params.accCap.any fun cap => decide (cap < s.accLen + len)

/-- R269: `4 * digestLen(ALG) > 64`. -/
def digestTooLong (alg : Alg) : Bool := decide (64 < digestBytes alg)

/-- R271: the first check that fails determines the one fault reported. -/
def firstFault (checks : List (Bool × FaultCode)) : Option FaultCode :=
  (checks.find? fun check => check.1).map fun check => check.2

/-- R271, R272: make the checks in their order; the first that fails is taken as the fault, and only if none fails does
the command's operation happen. -/
def State.withChecks (s : State) (checks : List (Bool × FaultCode))
    (operation : Host.Outcome State Fault Refusal) : Host.Outcome State Fault Refusal :=
  match firstFault checks with
  | some code => .next (s.takeFault code)
  | none => operation

/-- R62, R24: the context's fill index is below 64, as every rule that writes or reads BUF requires (log 9). -/
def Context.indexed (c : Context) (operation : Host.Outcome State Fault Refusal) :
    Host.Outcome State Fault Refusal :=
  if c.fi.toNat < 64 then operation else .refused .bufIndexOutOfRange

/-- R62, R27: ACC_LEN is at most ACC_CAP, as the rule that reads ACC requires (log 9). -/
def State.accIndexed (s : State) (operation : Host.Outcome State Fault Refusal) : Host.Outcome State Fault Refusal :=
  if s.accFull 0 then .refused .accIndexOutOfRange else operation

end Sys2Proof.Machine
end

