-- ==== Sys2Proof/Machine/Sha1.lean ====
section
/-! DEFINITION. The SHA-1 compression unit, the 80-step transform (42_sha1_compression R200 to R212). -/

namespace Sys2Proof.Machine

/-- R201: the SHA-1 initial values. -/
def sha1Iv : Vector Word 5 :=
  #v[0x67452301, 0xEFCDAB89, 0x98BADCFE, 0x10325476, 0xC3D2E1F0]

/-- R205, round 1. -/
def sha1Ch (x y z : Word) : Word := (x &&& y) ||| (~~~x &&& z)

/-- R206, R208, rounds 2 and 4. -/
def sha1Parity (x y z : Word) : Word := x ^^^ y ^^^ z

/-- R207, round 3. -/
def sha1Maj (x y z : Word) : Word := (x &&& y) ||| (x &&& z) ||| (y &&& z)

/-- R205 to R208: the function of step `t`. -/
def sha1Fun (t : Nat) (x y z : Word) : Word :=
  if t ≤ 19 then sha1Ch x y z
  else if t ≤ 39 then sha1Parity x y z
  else if t ≤ 59 then sha1Maj x y z
  else sha1Parity x y z

/-- R209: the constant of step `t`, `K[floor(t / 20)]`. -/
def sha1K (t : Nat) : Word :=
  if t ≤ 19 then 0x5A827999
  else if t ≤ 39 then 0x6ED9EBA1
  else if t ≤ 59 then 0x8F1BBCDC
  else 0xCA62C1D6

/-- R204: one schedule word from the words before it: `rotl(W[t-3] ^ W[t-8] ^ W[t-14] ^ W[t-16], 1)`. -/
def sha1Expand (w : Vector Word 80) (t : Nat) : Vector Word 80 :=
  let word (k : Nat) : Word := w[Fin.ofNat 80 (t - k)]
  w.setIfInBounds t (rotl (word 3 ^^^ word 8 ^^^ word 14 ^^^ word 16) 1)

/-- R202: the schedule with the block words in `W[0..15]`; `W[16..79]` are written by the expansion. -/
def sha1Words (block : ByteString) : Vector Word 80 :=
  Vector.ofFn fun j => if j.val < 16 then beWord block j else 0

/-- R204: the whole schedule, expanded in increasing `t` from 16 to 79. -/
def sha1Schedule (block : ByteString) : Vector Word 80 :=
  (List.range' 16 64).foldl sha1Expand (sha1Words block)

/-- R203: the unit with the schedule expanded and the chaining value copied into `a, b, c, d, e`. -/
def sha1Load (h : Vector Word 5) (block : ByteString) : Sha1Unit where
  a := h[0]
  b := h[1]
  c := h[2]
  d := h[3]
  e := h[4]
  w := sha1Schedule block
  t := 0

/-- R210: step `t`, all five registers written at once from the old values. -/
def sha1Step (u : Sha1Unit) (t : Nat) : Sha1Unit :=
  let f := sha1Fun t u.b u.c u.d
  let temp := rotl u.a 5 + f + u.e + u.w[Fin.ofNat 80 t] + sha1K t
  { u with a := temp, b := u.a, c := rotl u.b 30, d := u.c, e := u.d, t := BitVec.ofNat 7 t }

/-- R203: the unit after steps 0 to 79. -/
def sha1Run (h : Vector Word 5) (block : ByteString) : Sha1Unit :=
  (List.range 80).foldl sha1Step (sha1Load h block)

/-- R211: the feed-forward addition into `H[0..4]`. -/
def sha1Add (h : Vector Word 5) (u : Sha1Unit) : Vector Word 5 :=
  #v[h[0] + u.a, h[1] + u.b, h[2] + u.c, h[3] + u.d, h[4] + u.e]

/-- R200, R203: `SHA1_Transform(h, B)`. -/
def sha1Transform (h : Vector Word 5) (block : ByteString) : Vector Word 5 :=
  sha1Add h (sha1Run h block)

end Sys2Proof.Machine
end

