-- ==== Sys2Proof/Machine/Engine.lean ====
section
/-! DEFINITION. The hash engine's procedures (40_hash_engine R121 to R133), which the digest commands and the HMAC core
call. -/

namespace Sys2Proof.Machine

/-- R121, R171, R201: the published initial values of an algorithm. -/
def initialWords : Alg → Vector Word 5
  | .md5 => md5Iv
  | .sha1 => sha1Iv

/-- R121: `Init(c, alg)`. BUF is not written. -/
def Context.init (c : Context) (alg : Alg) : Context :=
  { c with valid := true, alg := alg, fi := 0, bcLo := 0, bcHi := 0, h := initialWords alg }

/-- R122: `IncBC(c)`, the low half carrying into the high half; both wrap. -/
def Context.incBc (c : Context) : Context :=
  { c with bcLo := c.bcLo + 1, bcHi := if c.bcLo + 1 = 0 then c.bcHi + 1 else c.bcHi }

/-- R127: the bit count `(512 * BC + 8 * FI) mod 2^64`. -/
def Context.bitTotal (c : Context) : BitVec 64 :=
  BitVec.ofNat 64 (512 * (c.bcHi.toNat * 2 ^ 32 + c.bcLo.toNat) + 8 * c.fi.toNat)

/-- R127: `bitlo`. -/
def Context.bitLo (c : Context) : Word := c.bitTotal.extractLsb' 0 32

/-- R127: `bithi`. -/
def Context.bitHi (c : Context) : Word := c.bitTotal.extractLsb' 32 32

/-- What an engine procedure works on: one context (`c` of the rules, or SH) and the two transform units it may run. -/
structure Engine where
  c : Context
  md5 : Md5Unit
  sha1 : Sha1Unit
  deriving DecidableEq, Repr

/-- The engine working on context `c` with the block's units. -/
def State.engine (s : State) (c : Context) : Engine := { c := c, md5 := s.md5, sha1 := s.sha1 }

/-- The state with the units as an engine procedure left them (log 11). -/
def State.withUnits (s : State) (e : Engine) : State := { s with md5 := e.md5, sha1 := e.sha1 }

/-- `c.BUF` becomes `buf`. -/
def Engine.withBuf (e : Engine) (buf : Vector Byte 64) : Engine := { e with c := { e.c with buf := buf } }

/-- R124: `Transform(c, B)`. It writes the working words and the unit it runs, and nothing else. -/
def Engine.transform (e : Engine) (block : ByteString) : Engine :=
  match e.c.alg with
  | .md5 =>
    let u := md5Run e.c.h block
    { e with c := { e.c with h := md5Add e.c.h u }, md5 := u }
  | .sha1 =>
    let u := sha1Run e.c.h block
    { e with c := { e.c with h := sha1Add e.c.h u }, sha1 := u }

/-- R123: `Transform` on a block of the message, then `IncBC`. -/
def Engine.absorb (e : Engine) (block : ByteString) : Engine :=
  let e := e.transform block
  { e with c := e.c.incBc }

/-- R123, U_TOPUP and U_XFORM: top up a pending partial block; when it is complete, transform it. The bytes of `data`
that are left come second. -/
def Engine.topUp (e : Engine) (data : ByteString) : Engine × ByteString :=
  let fi := e.c.fi.toNat
  if 0 < fi then
    let take := min (64 - fi) data.length
    let e := e.withBuf (memWrite e.c.buf fi (data.take take))
    if fi + take = 64 then
      let e := e.absorb (memRead e.c.buf 0 64)
      ({ e with c := { e.c with fi := 0 } }, data.drop take)
    else
      ({ e with c := { e.c with fi := BitVec.ofNat 7 (fi + take) } }, data.drop take)
  else (e, data)

/-- R123, U_BLOCKS: consume `n` whole blocks directly, BUF not written. -/
def Engine.directBlocks : Nat → Engine → ByteString → Engine × ByteString
  | 0, e, data => (e, data)
  | n + 1, e, data => Engine.directBlocks n (e.absorb (data.take 64)) (data.drop 64)

/-- R123, U_TAIL: buffer the leftover tail of less than 64 bytes. -/
def Engine.tail (e : Engine) (data : ByteString) : Engine :=
  if 0 < data.length then
    { e with c := { e.c with buf := memWrite e.c.buf 0 data, fi := BitVec.ofNat 7 data.length } }
  else e

/-- R123: `Update(c, D)`, for `FI <= 63` on entry. -/
def Engine.update (e : Engine) (data : ByteString) : Engine :=
  let topped := e.topUp data
  let direct := Engine.directBlocks (topped.2.length / 64) topped.1 topped.2
  direct.1.tail direct.2

/-- R129: `u`, the filled word count after the mark and the fill to a word boundary. -/
def filledWords (fi : Nat) : Nat := fi / 4 + 1

/-- R131: the eight bytes of the length field, in the slots and the byte order of the algorithm. -/
def lengthField (alg : Alg) (bitlo bithi : Word) : ByteString :=
  match alg with
  | .md5 => le32bytes bitlo ++ le32bytes bithi
  | .sha1 => be32bytes bithi ++ be32bytes bitlo

/-- R128, R129, P_MARK: the mark byte at the fill position, then zeros to the word boundary. -/
def Engine.padMark (e : Engine) : Engine :=
  let fi := e.c.fi.toNat
  let e := e.withBuf (memWrite e.c.buf fi [0x80])
  e.withBuf (memWrite e.c.buf (fi + 1) (zeros (4 * filledWords fi - (fi + 1))))

/-- R130, P_OVER: with more than 14 words used, zero the rest and transform; the counter is not incremented. -/
def Engine.padOver (e : Engine) (u : Nat) : Engine :=
  if 14 < u then
    let e := e.withBuf (memWrite e.c.buf (4 * u) (zeros (64 - 4 * u)))
    e.transform (memRead e.c.buf 0 64)
  else e

/-- R131, P_LEN: zeros up to byte 55, from byte 0 in a fresh block, then the length field in bytes 56 to 63. -/
def Engine.padLen (e : Engine) (u : Nat) (bitlo bithi : Word) : Engine :=
  let p := if 14 < u then 0 else 4 * u
  let e := e.withBuf (memWrite e.c.buf p (zeros (56 - p)))
  e.withBuf (memWrite e.c.buf 56 (lengthField e.c.alg bitlo bithi))

/-- R128 to R132: `Finalize(s, bitlo, bithi)`, for `FI <= 63`. `s.FI` is not updated. -/
def Engine.finalize (e : Engine) (bitlo bithi : Word) : Engine :=
  let u := filledWords e.c.fi.toNat
  let e := ((e.padMark).padOver u).padLen u bitlo bithi
  e.transform (memRead e.c.buf 0 64)

/-- R133: `Extract(s)`, from the working words; `H[0]` first, each word in the algorithm's byte order. -/
def extract (alg : Alg) (h : Vector Word 5) : ByteString :=
  match alg with
  | .md5 => le32bytes h[0] ++ le32bytes h[1] ++ le32bytes h[2] ++ le32bytes h[3]
  | .sha1 => be32bytes h[0] ++ be32bytes h[1] ++ be32bytes h[2] ++ be32bytes h[3] ++ be32bytes h[4]

/-- R126: `Digest(c)`. The engine that results works on the finalised copy SH; the digest comes second. -/
def Engine.digest (e : Engine) : Engine × ByteString :=
  let sh := e.finalize e.c.bitLo e.c.bitHi
  (sh, extract sh.c.alg sh.c.h)

end Sys2Proof.Machine
end

