-- ==== Sys2Proof/Machine/Digest.lean ====
section
/-! DEFINITION. The meanings of the six digest commands (40_hash_engine R140 to R145). Each makes its checks in the
order of 60_exceptions R271 before it changes any state. -/

namespace Sys2Proof.Machine

/-- R140: `D_INIT c<k>, <alg>`. The context may already be valid (D29). -/
def execDInit (k : BitVec 4) (alg : Alg) (s : State) : Host.Outcome State Fault Refusal :=
  s.withChecks [(s.badPayload 0, .len), (s.badCtx k, .badCtx)]
    (.next ((s.setCtx k ((s.getCtx k).init alg)).respond []))

/-- R141: `D_RESET c<k>`. The algorithm is kept. -/
def execDReset (k : BitVec 4) (s : State) : Host.Outcome State Fault Refusal :=
  s.withChecks [(s.badPayload 0, .len), (s.badCtx k, .badCtx), (s.invalidCtx k, .ctxInvalid)]
    (.next ((s.setCtx k ((s.getCtx k).init (s.getCtx k).alg)).respond []))

/-- R142: `D_UPDATE c<k>, <payload>`. -/
def execDUpdate (k : BitVec 4) (len : Nat) (s : State) : Host.Outcome State Fault Refusal :=
  s.withChecks [(s.badPayload len, .len), (s.badCtx k, .badCtx), (s.invalidCtx k, .ctxInvalid)]
    ((s.getCtx k).indexed
      (let e := (s.engine (s.getCtx k)).update s.cmd.payload
       .next (((s.withUnits e).setCtx k e.c).respond [])))

/-- R143: `D_DIGEST c<k>`. SH is written; the live context is not (R134). -/
def execDDigest (k : BitVec 4) (s : State) : Host.Outcome State Fault Refusal :=
  s.withChecks [(s.badPayload 0, .len), (s.badCtx k, .badCtx), (s.invalidCtx k, .ctxInvalid)]
    ((s.getCtx k).indexed
      (let d := (s.engine (s.getCtx k)).digest
       .next ({ s.withUnits d.1 with sh := d.1.c }.respond d.2)))

/-- R144: `D_CLONE c<dst>, c<src>`: every field is copied. The destination need not be valid; `dst = src` is legal. -/
def execDClone (dst src : BitVec 4) (s : State) : Host.Outcome State Fault Refusal :=
  s.withChecks
    [(s.badPayload 0, .len), (s.badCtx dst || s.badCtx src, .badCtx), (s.invalidCtx src, .ctxInvalid)]
    (.next ((s.setCtx dst (s.getCtx src)).respond []))

/-- R145: `D_LEN c<k>`: one byte, 0x10 or 0x14. -/
def execDLen (k : BitVec 4) (s : State) : Host.Outcome State Fault Refusal :=
  s.withChecks [(s.badPayload 0, .len), (s.badCtx k, .badCtx), (s.invalidCtx k, .ctxInvalid)]
    (.next (s.respond [BitVec.ofNat 8 (digestBytes (s.getCtx k).alg)]))

end Sys2Proof.Machine
end

