-- ==== Sys2Proof/Machine/Hmac.lean ====
section
/-! DEFINITION. The HMAC core (43_hmac R230 to R246): its own digest context HC, the key derivation, and the meanings of
the four HMAC commands. -/

namespace Sys2Proof.Machine

/-- `Init(HC, alg)`, an `Update(HC, ·)` for each of `parts` in order, and `Digest(HC)` (R231, R240; 30_encoding R103).
HC and SH are written (log 10). -/
def State.ownDigest (s : State) (alg : Alg) (parts : List ByteString) : State × ByteString :=
  let e := parts.foldl Engine.update (s.engine (s.hc.init alg))
  let d := e.digest
  ({ s.withUnits d.1 with hc := e.c, sh := d.1.c }, d.2)

/-- R231: a key of more than 64 bytes is replaced by its digest. -/
def State.shortKey (s : State) (alg : Alg) (key : ByteString) : State × ByteString :=
  if 64 < key.length then s.ownDigest alg [key] else (s, key)

/-- R232: `PK = K || zeros(64 - len(K))`. -/
def padKey (key : ByteString) : Vector Byte 64 := memWrite (Vector.replicate 64 0) 0 key

/-- R233: every byte of the padded key XORed with the pad byte. -/
def xorPad (pk : Vector Byte 64) (pad : Byte) : Vector Byte 64 := Vector.ofFn fun j => pk[j] ^^^ pad

/-- R234: the operation of `H_KEY`. -/
def State.deriveKey (s : State) (alg : Alg) (key : ByteString) : State :=
  let k := s.shortKey alg key
  { k.1 with
    kipad := xorPad (padKey k.2) 0x36
    kopad := xorPad (padKey k.2) 0x5C
    halg := alg
    accLen := 0
    keyed := true }

/-- R240 to R242: the inner pass, then the outer pass. -/
def State.twoPasses (s : State) : State × ByteString :=
  let inner := s.ownDigest s.halg [memRead s.kipad 0 64, s.accMessage]
  inner.1.ownDigest s.halg [memRead s.kopad 0 64, inner.2]

/-- R234: `H_KEY <alg>, <key>`. The core may already be keyed (D28). -/
def execHKey (alg : Alg) (len : Nat) (s : State) : Host.Outcome State Fault Refusal :=
  s.withChecks [(s.badPayload len, .len), (digestTooLong alg, .hmacDigestTooLong)]
    (.next ((s.deriveKey alg s.cmd.payload).respond []))

/-- R235: `H_RESET`. The bytes of ACC are not erased, they become dead. -/
def execHReset (s : State) : Host.Outcome State Fault Refusal :=
  s.withChecks [(s.badPayload 0, .len), (s.unkeyed, .hmacUnkeyed)]
    (.next ({ s with accLen := 0 }.respond []))

/-- R236: `H_UPDATE <payload>`. An overflowing command appends nothing. -/
def execHUpdate (len : Nat) (s : State) : Host.Outcome State Fault Refusal :=
  s.withChecks [(s.badPayload len, .len), (s.unkeyed, .hmacUnkeyed), (s.accFull len, .accOverflow)]
    (.next ((s.appendAcc s.cmd.payload).respond []))

/-- R240: `H_DIGEST`. Pads, accumulator, HALG and KEYED are unchanged (R243). -/
def execHDigest (s : State) : Host.Outcome State Fault Refusal :=
  s.withChecks [(s.badPayload 0, .len), (s.unkeyed, .hmacUnkeyed)]
    (s.accIndexed
      (let outer := s.twoPasses
       .next (outer.1.respond outer.2)))

end Sys2Proof.Machine
end

