-- ==== Sys2Proof/Machine/Dispatch.lean ====
section
/-! DEFINITION. One arm per command: the meaning each calls. -/

namespace Sys2Proof.Machine

def exec (i : Instr) (s : State) : Host.Outcome State Fault Refusal :=
  match i with
  | .dInit k alg => Sys2Proof.Machine.execDInit k alg s
  | .dReset k => Sys2Proof.Machine.execDReset k s
  | .dUpdate k len => Sys2Proof.Machine.execDUpdate k len s
  | .dDigest k => Sys2Proof.Machine.execDDigest k s
  | .dClone dst src => Sys2Proof.Machine.execDClone dst src s
  | .dLen k => Sys2Proof.Machine.execDLen k s
  | .hKey alg len => Sys2Proof.Machine.execHKey alg len s
  | .hReset => Sys2Proof.Machine.execHReset s
  | .hUpdate len => Sys2Proof.Machine.execHUpdate len s
  | .hDigest => Sys2Proof.Machine.execHDigest s

end Sys2Proof.Machine
end

