-- ==== Sys2Proof/Machine/Flags.lean ====
section
/-! DEFINITION. The three read-only status registers (10_state R37) and the status port (30_encoding R101). The block
has no condition codes (10_state R36). -/

namespace Sys2Proof.Machine

/-- STATUS.FAULT: 1 after a fault, until hardware reset (R37). -/
def State.faultBit (s : State) : BitVec 1 :=
  match s.seq with
  | .idle => 0#1
  | .faulted => 1#1

/-- STATUS.HALG: a copy of HALG, read as 0 while `KEYED = 0` (R37). -/
def State.halgBit (s : State) : BitVec 1 := if s.keyed then algBit s.halg else 0#1

/-- Status register 0, STATUS (R37): CAUSE in bits 15:8, HALG in bit 2, KEYED in bit 1, FAULT in bit 0; the reserved
bits read as 0. -/
def State.statusWord (s : State) : Word :=
  (0 : BitVec 16) ++ s.cause ++ (0 : BitVec 5) ++ s.halgBit ++ BitVec.ofBool s.keyed ++ s.faultBit

/-- CTXV bit `k`, `V[k]`: `CTX[k].VALID` for `k < NCTX`, else 0 (R37). -/
def State.validBit (s : State) (k : Fin 16) : Bool :=
  decide (k.val < s.params.nctx) && (s.ctx[k.val]'k.isLt).valid

/-- CTXV bit `16+k`, `A[k]`: `CTX[k].ALG` if `CTX[k].VALID = 1`, else 0 (R37). -/
def State.algFlag (s : State) (k : Fin 16) : Bool :=
  s.validBit k && decide ((s.ctx[k.val]'k.isLt).alg = .sha1)

/-- Status register 2, CTXV (R37). -/
def State.ctxvWord (s : State) : Word :=
  (BitVec.ofFnLE s.algFlag : BitVec 16) ++ (BitVec.ofFnLE s.validBit : BitVec 16)

/-- R101: `StatRead(n)`. -/
def State.statRead (s : State) (n : Nat) : Word :=
  match n with
  | 0 => s.statusWord
  | 1 => s.finfo
  | 2 => s.ctxvWord
  | _ => 0

end Sys2Proof.Machine
end

