-- ==== Sys2Proof/Machine/Ports.lean ====
section
/-! DEFINITION. The four ports (30_encoding R90): what each act of the host does to the block. -/

namespace Sys2Proof.Machine

/-- The transaction at CMD is decoded and run, or its fault taken (R97, R271 steps 1 and 2). -/
def State.runCommand (s : State) : Host.Outcome State Fault Refusal :=
  match decode s.cmd.cw with
  | .command i => exec i s
  | .illegalOpc => .next (s.takeFault .illegalOpc)
  | .reserved => .next (s.takeFault .reserved)

/-- A command transaction is presented at CMD. In FAULTED it is refused without being decoded, and changes nothing but
the response given (60_exceptions R273). -/
def State.present (s : State) (t : Transaction) : Host.Outcome State Fault Refusal :=
  match s.seq with
  | .idle => ({ s with cmd := t }).runCommand
  | .faulted => .next s.respondFault

/-- A status read returns the register's value and changes no state of the block (R101). -/
def State.readStatus (s : State) (n : Nat) : State := { s with stat := s.stat ++ [s.statRead n] }

/-- Carry out one act of the host. A command abandoned by RST has no response, and its effect is that of the reset
(70_reset R300). -/
def State.carryOut (s : State) (act : HostAct) : Host.Outcome State Fault Refusal :=
  match act with
  | .command t => s.present t
  | .commandAbandoned _ => .next s.hardwareReset
  | .reset => .next s.hardwareReset
  | .statRead n => .next (s.readStatus n)

/-- Take the oldest pending act of the host and carry it out; with none pending the block waits (10_state R34). -/
def State.takeAct (s : State) : Host.Outcome State Fault Refusal :=
  match s.pending with
  | [] => .next s
  | act :: rest => ({ s with pending := rest }).carryOut act

/-- A payload of as many zero bytes as a command announces: LEN for the data commands, none for the others (R92). -/
def zeroPayloadOf : Instr → ByteString
  | .dUpdate _ len => zeros len
  | .hKey _ len => zeros len
  | .hUpdate len => zeros len
  | .dInit _ _ => []
  | .dReset _ => []
  | .dDigest _ => []
  | .dClone _ _ => []
  | .dLen _ => []
  | .hReset => []
  | .hDigest => []

/-- The payload of zeros that goes with a command word. -/
def zeroPayload (cw : Word) : ByteString :=
  match decode cw with
  | .command i => zeroPayloadOf i
  | .illegalOpc => []
  | .reserved => []

end Sys2Proof.Machine
end

