-- ==== Sys2Proof/Machine/Step.lean ====
section
/-! DEFINITION. One step: one act of the host (00_scope R8, R9). -/

namespace Sys2Proof.Machine

/-- One step of the block: one whole command, one status read, one hardware reset, or, with nothing to do, waiting. -/
def step (s : State) : Host.Outcome State Fault Refusal := s.takeAct

/-- `s` with a command presented next, so that the very next step runs it (log 13): the command word `w` with a payload
of zeros of the announced length becomes the oldest pending act, and SEQ is IDLE, without which no command is
decoded. -/
def State.withFetchWord (s : State) (nbits w : Nat) : State :=
  { s with
    seq := .idle
    pending :=
      .command { cw := tableWord nbits w, payload := zeroPayload (tableWord nbits w) } :: s.pending }

end Sys2Proof.Machine
end

