-- ==== Sys2Proof/Machine/Assembler.lean ====
section
/-! DEFINITION. The assembler syntax (30_encoding R99) and the pseudo-commands (R100): from a line of text to the
command transactions it stands for. The machine does not use it; a host writes its transactions so. -/

namespace Sys2Proof.Machine

/-- One line of assembler (R99, R100). `LEN` is the payload's length and is not written. -/
inductive AsmLine where
  | dInit (ctx : BitVec 4) (alg : Alg)
  | dReset (ctx : BitVec 4)
  | dUpdate (ctx : BitVec 4) (payload : ByteString)
  | dDigest (ctx : BitVec 4)
  | dClone (dst src : BitVec 4)
  | dLen (ctx : BitVec 4)
  | hKey (alg : Alg) (key : ByteString)
  | hReset
  | hUpdate (payload : ByteString)
  | hDigest
  /-- `HASH c<k>, <alg>, <payload>`. -/
  | hash (ctx : BitVec 4) (alg : Alg) (payload : ByteString)
  /-- `MAC <alg>, <key>, <payload>`. -/
  | mac (alg : Alg) (key payload : ByteString)
  deriving DecidableEq, Repr

/-- The transaction of a command with its payload (R90, R95). -/
def transactionOf (i : Instr) (payload : ByteString) : Transaction := { cw := encode i, payload := payload }

/-- R100 (c): a payload cut into pieces, each but the last of 65535 bytes; `fuel` bounds the number of cuts. -/
def cutPayload : Nat → ByteString → List ByteString
  | 0, p => [p]
  | fuel + 1, p => if p.length ≤ lenMax then [p] else p.take lenMax :: cutPayload fuel (p.drop lenMax)

/-- The pieces of a payload of any length (R100 (c)). -/
def payloadPieces (p : ByteString) : List ByteString := cutPayload (p.length / lenMax) p

/-- R100 (c): `D_UPDATE` with a payload of any length. -/
def updateCommands (k : BitVec 4) (p : ByteString) : List Transaction :=
  (payloadPieces p).map fun piece => transactionOf (.dUpdate k piece.length) piece

/-- R100 (c): `H_UPDATE` with a payload of any length. -/
def hmacUpdateCommands (p : ByteString) : List Transaction :=
  (payloadPieces p).map fun piece => transactionOf (.hUpdate piece.length) piece

/-- `H_KEY` with its key; a key of more than 65535 bytes cannot be given (R92). -/
def keyCommand (alg : Alg) (key : ByteString) : Option (List Transaction) :=
  if key.length ≤ lenMax then some [transactionOf (.hKey alg key.length) key] else none

/-- R100: the transactions a line expands to. -/
def AsmLine.expand : AsmLine → Option (List Transaction)
  | .dInit k alg => some [transactionOf (.dInit k alg) []]
  | .dReset k => some [transactionOf (.dReset k) []]
  | .dUpdate k p => some (updateCommands k p)
  | .dDigest k => some [transactionOf (.dDigest k) []]
  | .dClone d s => some [transactionOf (.dClone d s) []]
  | .dLen k => some [transactionOf (.dLen k) []]
  | .hKey alg key => keyCommand alg key
  | .hReset => some [transactionOf .hReset []]
  | .hUpdate p => some (hmacUpdateCommands p)
  | .hDigest => some [transactionOf .hDigest []]
  | .hash k alg p =>
    some (transactionOf (.dInit k alg) [] :: (updateCommands k p ++ [transactionOf (.dDigest k) []]))
  | .mac alg key p =>
    (keyCommand alg key).map fun ts => ts ++ (hmacUpdateCommands p ++ [transactionOf .hDigest []])

/-- The tokens of a line: names and numbers, commas, payload operands. -/
inductive Token where
  | name (cs : List Char)
  | comma
  | bytes (b : ByteString)
  deriving DecidableEq, Repr

/-- Where the reader of a line stands. -/
inductive LexMode where
  | text
  /-- Inside a double-quoted string. -/
  | quoted
  /-- Inside a brace list, with the first digit of a byte if one has been read. -/
  | hex (digit : Option Nat)
  | comment
  | bad
  deriving DecidableEq, Repr

/-- The reader of a line; the newest token, character and byte come first. -/
structure Lexer where
  mode : LexMode
  tokens : List Token
  chars : List Char
  bytes : ByteString
  deriving DecidableEq, Repr

/-- End the name being read, if any. -/
def Lexer.flush (l : Lexer) : Lexer :=
  match l.chars with
  | [] => l
  | cs => { l with tokens := .name cs.reverse :: l.tokens, chars := [] }

/-- End the payload operand being read. -/
def Lexer.endBytes (l : Lexer) : Lexer :=
  { l with mode := .text, tokens := .bytes l.bytes.reverse :: l.tokens, bytes := [] }

/-- The value of a hexadecimal digit. -/
def hexDigit (ch : Char) : Option Nat :=
  if '0' ≤ ch ∧ ch ≤ '9' then some (ch.toNat - '0'.toNat)
  else if 'A' ≤ ch ∧ ch ≤ 'F' then some (ch.toNat - 'A'.toNat + 10)
  else if 'a' ≤ ch ∧ ch ≤ 'f' then some (ch.toNat - 'a'.toNat + 10)
  else none

/-- A brace opens at character 123 and closes at character 125 (ASCII). -/
def openBrace : Char := Char.ofNat 123

/-- See `openBrace`. -/
def closeBrace : Char := Char.ofNat 125

/-- Read one character of a line (R99). -/
def Lexer.read (l : Lexer) (ch : Char) : Lexer :=
  match l.mode with
  | .text =>
    if ch = ';' then { l.flush with mode := .comment }
    else if ch = ',' then { l.flush with tokens := .comma :: l.flush.tokens }
    else if ch = '"' then { l.flush with mode := .quoted }
    else if ch = openBrace then { l.flush with mode := .hex none }
    else if ch.isWhitespace then l.flush
    else { l with chars := ch :: l.chars }
  | .quoted =>
    if ch = '"' then l.endBytes
    else if ch.toNat < 128 then { l with bytes := BitVec.ofNat 8 ch.toNat :: l.bytes }
    else { l with mode := .bad }
  | .hex digit =>
    match digit, hexDigit ch with
    | none, some d => { l with mode := .hex (some d) }
    | some d, some e => { l with mode := .hex none, bytes := BitVec.ofNat 8 (16 * d + e) :: l.bytes }
    | none, none =>
      if ch = closeBrace then l.endBytes else if ch.isWhitespace then l else { l with mode := .bad }
    | some _, none => { l with mode := .bad }
  | .comment => l
  | .bad => l

/-- The tokens of a line, unless a string or a brace list in it is malformed or unclosed. -/
def tokensOf (line : List Char) : Option (List Token) :=
  let l := (line.foldl Lexer.read { mode := .text, tokens := [], chars := [], bytes := [] })
  match l.mode with
  | .text => some l.flush.tokens.reverse
  | .comment => some l.tokens.reverse
  | .quoted => none
  | .hex _ => none
  | .bad => none

/-- A decimal number. -/
def decimal (cs : List Char) : Option Nat :=
  if cs = [] then none
  else cs.foldl (fun n ch => n.bind fun m =>
    if '0' ≤ ch ∧ ch ≤ '9' then some (10 * m + (ch.toNat - '0'.toNat)) else none) (some 0)

/-- A context operand `c<k>` with `k` decimal (R99); CTX and CTX2 hold 0 to 15. -/
def ctxOperand (cs : List Char) : Option (BitVec 4) :=
  match cs with
  | 'c' :: digits => (decimal digits).bind fun k => if k < 16 then some (BitVec.ofNat 4 k) else none
  | _ => none

/-- An algorithm operand, `MD5` or `SHA1` (R99). -/
def algOperand (cs : List Char) : Option Alg :=
  if cs = ['M', 'D', '5'] then some .md5
  else if cs = ['S', 'H', 'A', '1'] then some .sha1
  else none

/-- The command names that take no operand. -/
def parsePlain (m : List Char) : Option AsmLine :=
  if m = ['H', '_', 'R', 'E', 'S', 'E', 'T'] then some .hReset
  else if m = ['H', '_', 'D', 'I', 'G', 'E', 'S', 'T'] then some .hDigest
  else none

/-- The command names that take one context. -/
def parseCtx (m : List Char) (k : BitVec 4) : Option AsmLine :=
  if m = ['D', '_', 'R', 'E', 'S', 'E', 'T'] then some (.dReset k)
  else if m = ['D', '_', 'D', 'I', 'G', 'E', 'S', 'T'] then some (.dDigest k)
  else if m = ['D', '_', 'L', 'E', 'N'] then some (.dLen k)
  else none

/-- The command names that take two names: `D_INIT c<k>, <alg>` and `D_CLONE c<dst>, c<src>`, destination first. -/
def parseTwo (m x y : List Char) : Option AsmLine :=
  if m = ['D', '_', 'I', 'N', 'I', 'T'] then
    (ctxOperand x).bind fun k => (algOperand y).map fun alg => .dInit k alg
  else if m = ['D', '_', 'C', 'L', 'O', 'N', 'E'] then
    (ctxOperand x).bind fun d => (ctxOperand y).map fun s => .dClone d s
  else none

/-- The command names that take a name and a payload. -/
def parseData (m x : List Char) (p : ByteString) : Option AsmLine :=
  if m = ['D', '_', 'U', 'P', 'D', 'A', 'T', 'E'] then (ctxOperand x).map fun k => .dUpdate k p
  else if m = ['H', '_', 'K', 'E', 'Y'] then (algOperand x).map fun alg => .hKey alg p
  else none

/-- Read a line's tokens (R99, R100). -/
def parseTokens (ts : List Token) : Option AsmLine :=
  match ts with
  | [.name m] => parsePlain m
  | [.name m, .name x] => (ctxOperand x).bind fun k => parseCtx m k
  | [.name m, .bytes p] => if m = ['H', '_', 'U', 'P', 'D', 'A', 'T', 'E'] then some (.hUpdate p) else none
  | [.name m, .name x, .comma, .name y] => parseTwo m x y
  | [.name m, .name x, .comma, .bytes p] => parseData m x p
  | [.name m, .name x, .comma, .name y, .comma, .bytes p] =>
    if m = ['H', 'A', 'S', 'H'] then
      (ctxOperand x).bind fun k => (algOperand y).map fun alg => .hash k alg p
    else none
  | [.name m, .name x, .comma, .bytes key, .comma, .bytes p] =>
    if m = ['M', 'A', 'C'] then (algOperand x).map fun alg => .mac alg key p else none
  | _ => none

/-- The transactions a line of text stands for (R99, R100); an empty line or a comment stands for none. -/
def assemble (line : List Char) : Option (List Transaction) :=
  (tokensOf line).bind fun ts =>
    match ts with
    | [] => some []
    | t :: more => (parseTokens (t :: more)).bind AsmLine.expand

end Sys2Proof.Machine
end

