-- ==== Sys2Proof/Machine/Standard.lean ====
section
/-! DEFINITION. The whole-message forms of the functions the block computes: the padded end of a message
(40_hash_engine R132), the digest of a message (R120) and the HMAC of a key and a message (43_hmac R230 to R233). The
machine does not use them; claims compare its incremental procedures with them. -/

namespace Sys2Proof.Machine

/-- R102, R124: the compression function of an algorithm. -/
def compress (alg : Alg) (h : Vector Word 5) (block : ByteString) : Vector Word 5 :=
  match alg with
  | .md5 => md5Transform h block
  | .sha1 => sha1Transform h block

/-- The first `n` blocks of 64 bytes of `data`. -/
def blocksOf : Nat → ByteString → List ByteString
  | 0, _ => []
  | n + 1, data => data.take 64 :: blocksOf n (data.drop 64)

/-- Every whole block of `data`. -/
def wholeBlocks (data : ByteString) : List ByteString := blocksOf (data.length / 64) data

/-- The bytes of `data` after its whole blocks, fewer than 64. -/
def leftover (data : ByteString) : ByteString := data.drop (64 * (data.length / 64))

/-- The chaining value after compressing `blocks` in order. -/
def hashBlocks (alg : Alg) (h : Vector Word 5) (blocks : List ByteString) : Vector Word 5 :=
  blocks.foldl (compress alg) h

/-- The processed-block counter as one number (10_state R25). -/
def Context.counter (c : Context) : Nat := c.bcHi.toNat * 2 ^ 32 + c.bcLo.toNat

/-- The live bytes `BUF[0 .. FI-1]` (10_state R23). -/
def Context.live (c : Context) : ByteString := memRead c.buf 0 c.fi.toNat

/-- R132: the last bytes `m` of a message (fewer than 64), the mark, the zeros and the length field: one block when
`m` has at most 55 bytes, two otherwise. -/
def paddedEnd (alg : Alg) (m : ByteString) (bitlo bithi : Word) : ByteString :=
  m ++ 0x80 :: zeros (if m.length ≤ 55 then 55 - m.length else 119 - m.length) ++ lengthField alg bitlo bithi

/-- The length of a message in bits, modulo `2^64` (R127). -/
def messageBits (msg : ByteString) : BitVec 64 := BitVec.ofNat 64 (8 * msg.length)

/-- The digest of a whole message: every whole block, then the padded end, from the initial values. -/
def messageDigest (alg : Alg) (msg : ByteString) : ByteString :=
  let padded := paddedEnd alg (leftover msg) ((messageBits msg).extractLsb' 0 32) ((messageBits msg).extractLsb' 32 32)
  extract alg (hashBlocks alg (initialWords alg) (wholeBlocks msg ++ wholeBlocks padded))

/-- The context has been constructed for `alg` and has absorbed exactly `msg` (R120, 10_state R24, R25). -/
def Context.holds (c : Context) (alg : Alg) (msg : ByteString) : Prop :=
  c.valid = true ∧ c.alg = alg ∧ c.fi.toNat = msg.length % 64 ∧ c.counter = msg.length / 64 % 2 ^ 64 ∧
    c.h = hashBlocks alg (initialWords alg) (wholeBlocks msg) ∧ c.live = leftover msg

/-- R231: the key, replaced by its digest when longer than 64 bytes. -/
def hmacKey (alg : Alg) (key : ByteString) : ByteString :=
  if 64 < key.length then messageDigest alg key else key

/-- R232, R233: the 64-byte padded key, every byte XORed with the pad byte. -/
def hmacPad (alg : Alg) (key : ByteString) (pad : Byte) : ByteString :=
  (hmacKey alg key ++ zeros (64 - (hmacKey alg key).length)).map fun b => b ^^^ pad

/-- R230: `Digest(outerKeyPad || Digest(innerKeyPad || message))`. -/
def hmac (alg : Alg) (key msg : ByteString) : ByteString :=
  messageDigest alg (hmacPad alg key 0x5C ++ messageDigest alg (hmacPad alg key 0x36 ++ msg))

end Sys2Proof.Machine
end

