-- ==== Sys2Proof/Safety.lean ====
section
/-! DEFINITION. What counts as a safe run (60_exceptions R284: no fault recorded), the state a fault leaves (R270) and
the invariant of the block's state at command boundaries. -/

namespace Sys2Proof.Machine

/-- R284: no fault has been recorded. -/
def State.safe (s : State) : Bool := s.seq == .idle

/-- R270, written out: the state that fault number `n` leaves, with every field it does not name unchanged. -/
def State.faulted (s : State) (n : BitVec 8) : State :=
  { s with
    seq := .faulted
    cause := n
    finfo := s.cmd.cw
    rsp := s.rsp ++ [{ code := .fault, bytes := [] }] }

/-- A valid context at a command boundary: `FI <= 63` (10_state R24), and `H[4]` of an MD5 context is the 0 that Init
wrote (10_state R26). -/
abbrev Context.Inv (c : Context) : Prop :=
  c.valid = true → c.fi.toNat ≤ 63 ∧ (c.alg = .md5 → c.h[4] = 0)

/-- The accumulator at a command boundary: canonical memory, every byte below ACC_LEN written, `ACC_LEN <= ACC_CAP`
(10_state R27), and nothing accumulated while there is no key (R41, R267). -/
abbrev State.AccInv (s : State) : Prop :=
  s.acc.wf = true ∧ (∀ i < s.accLen, (s.acc.read? i).isSome = true) ∧
    (s.params.accCap.all fun cap => decide (s.accLen ≤ cap)) = true ∧ (s.keyed = false → s.accLen = 0)

/-- The status registers: 0 until a fault (R37), a code of R261 after it. -/
abbrev State.StatusInv (s : State) : Prop :=
  (s.seq = .idle → s.cause = 0 ∧ s.finfo = 0) ∧ (s.seq = .faulted → 1 ≤ s.cause.toNat ∧ s.cause.toNat ≤ 8)

/-- The invariant of the state at command boundaries: legal parameters (R7), every valid context in order, no valid
context at NCTX or above (R20, R265), the accumulator and the status registers in order. -/
abbrev State.Inv (s : State) : Prop :=
  s.params.legal = true ∧
    (∀ k : Fin 16, (s.ctx[k.val]'k.isLt).Inv) ∧
    (∀ k : Fin 16, s.params.nctx ≤ k.val → (s.ctx[k.val]'k.isLt).valid = false) ∧
    s.AccInv ∧ s.StatusInv

/-! ### The checks of a command, written out (60_exceptions R261, R264 to R269, R271) -/

/-- R264: how many payload bytes a command announces: LEN for the data commands, none for the other seven. -/
def announced : Instr → Nat
  | .dUpdate _ len => len
  | .hKey _ len => len
  | .hUpdate len => len
  | .dInit _ _ => 0
  | .dReset _ => 0
  | .dDigest _ => 0
  | .dClone _ _ => 0
  | .dLen _ => 0
  | .hReset => 0
  | .hDigest => 0

/-- R265: the context numbers a command names. -/
def contextsNamed : Instr → List (BitVec 4)
  | .dInit k _ => [k]
  | .dReset k => [k]
  | .dUpdate k _ => [k]
  | .dDigest k => [k]
  | .dClone dst src => [dst, src]
  | .dLen k => [k]
  | .hKey _ _ => []
  | .hReset => []
  | .hUpdate _ => []
  | .hDigest => []

/-- R266: the context whose contents a command needs. -/
def contextRead : Instr → Option (BitVec 4)
  | .dReset k => some k
  | .dUpdate k _ => some k
  | .dDigest k => some k
  | .dClone _ src => some src
  | .dLen k => some k
  | .dInit _ _ => none
  | .hKey _ _ => none
  | .hReset => none
  | .hUpdate _ => none
  | .hDigest => none

/-- R267: the commands that need a key. -/
def needsKey : Instr → Bool
  | .hReset => true
  | .hUpdate _ => true
  | .hDigest => true
  | .dInit _ _ => false
  | .dReset _ => false
  | .dUpdate _ _ => false
  | .dDigest _ => false
  | .dClone _ _ => false
  | .dLen _ => false
  | .hKey _ _ => false

/-- R268: `H_UPDATE` would exceed ACC_CAP. -/
def overflows (s : State) : Instr → Bool
  | .hUpdate len =>
    match s.params.accCap with
    | some cap => decide (s.accLen + len > cap)
    | none => false
  | .dInit _ _ => false
  | .dReset _ => false
  | .dUpdate _ _ => false
  | .dDigest _ => false
  | .dClone _ _ => false
  | .dLen _ => false
  | .hKey _ _ => false
  | .hReset => false
  | .hDigest => false

/-- R269: `H_KEY` names an algorithm whose digest has more than 64 bytes (4 words for MD5, 5 for SHA-1, R6). -/
def digestExceeds64 : Instr → Bool
  | .hKey .md5 _ => decide (64 < 4 * 4)
  | .hKey .sha1 _ => decide (64 < 4 * 5)
  | .dInit _ _ => false
  | .dReset _ => false
  | .dUpdate _ _ => false
  | .dDigest _ => false
  | .dClone _ _ => false
  | .dLen _ => false
  | .hReset => false
  | .hUpdate _ => false
  | .hDigest => false

/-- R271, checks (3) to (8) in their order: the fault number of the first that fails. -/
def expectedFault (s : State) (i : Instr) : Option (BitVec 8) :=
  if s.cmd.payload.length ≠ announced i then some 3
  else if (contextsNamed i).any fun k => decide (s.params.nctx ≤ k.toNat) then some 4
  else if (contextRead i).any fun k => (s.getCtx k).valid == false then some 5
  else if needsKey i = true ∧ s.keyed = false then some 6
  else if overflows s i = true then some 7
  else if digestExceeds64 i = true then some 8
  else none

/-- R271, checks (1) and (2): OPC legal, then every must-be-zero field zero, then checks (3) to (8). -/
def expectedPortFault (s : State) : Option (BitVec 8) :=
  match decode s.cmd.cw with
  | .illegalOpc => some 1
  | .reserved => some 2
  | .command i => expectedFault s i

/-- R95: `OPC` names a command, 0x1 to 0xA. -/
def opcodeLegal (cw : Word) : Prop := 1 ≤ (cw &&& 0xF).toNat ∧ (cw &&& 0xF).toNat ≤ 10

/-- R96: some bit of a field that is must-be-zero for the command OPC names is 1: MBZ in every command; CTX2 but in
D_CLONE; ALG but in D_INIT and H_KEY; CTX in the four `H_*` commands; LEN but in D_UPDATE, H_KEY and H_UPDATE. -/
def strayBit (cw : Word) : Prop :=
  cw.extractLsb' 13 3 ≠ 0 ∨
    (cw.extractLsb' 8 4 ≠ 0 ∧ cw &&& 0xF ≠ 5) ∨
    (cw.extractLsb' 12 1 ≠ 0 ∧ cw &&& 0xF ≠ 1 ∧ cw &&& 0xF ≠ 7) ∨
    (cw.extractLsb' 4 4 ≠ 0 ∧ 7 ≤ (cw &&& 0xF).toNat) ∨
    (cw.extractLsb' 16 16 ≠ 0 ∧ cw &&& 0xF ≠ 3 ∧ cw &&& 0xF ≠ 7 ∧ cw &&& 0xF ≠ 9)

/-- The six digest commands. -/
def isDigestCommand : Instr → Bool
  | .dInit _ _ => true
  | .dReset _ => true
  | .dUpdate _ _ => true
  | .dDigest _ => true
  | .dClone _ _ => true
  | .dLen _ => true
  | .hKey _ _ => false
  | .hReset => false
  | .hUpdate _ => false
  | .hDigest => false

/-- The one context a digest command may write (R39): none for D_DIGEST and D_LEN. -/
def contextWritten : Instr → Option (BitVec 4)
  | .dInit k _ => some k
  | .dReset k => some k
  | .dUpdate k _ => some k
  | .dClone dst _ => some dst
  | .dDigest _ => none
  | .dLen _ => none
  | .hKey _ _ => none
  | .hReset => none
  | .hUpdate _ => none
  | .hDigest => none

/-- The state at the CMD port when a transaction is taken up: it is no longer pending, and it is at the port. -/
def State.atPort (s : State) (t : Transaction) (rest : List HostAct) : State :=
  { s with pending := rest, cmd := t }

/-- The core is keyed for `alg` with `key` (43_hmac R231 to R234). -/
def State.keyedBy (s : State) (alg : Alg) (key : ByteString) : Prop :=
  s.keyed = true ∧ s.halg = alg ∧ s.kipad.toList = hmacPad alg key 0x36 ∧ s.kopad.toList = hmacPad alg key 0x5C

/-- Two contexts the host cannot tell apart: both are not valid, or both are and differ at most in dead bytes of BUF
(10_state R23, R41). -/
def Context.sameToHost (c d : Context) : Prop :=
  c.valid = d.valid ∧
    (c.valid = true → c.alg = d.alg ∧ c.fi = d.fi ∧ c.counter = d.counter ∧ c.h = d.h ∧ c.live = d.live)

/-- Two states the host cannot tell apart: they differ at most in what the spec calls unspecified, dead or scratch: the
contents of contexts that are not valid, dead bytes of BUF and ACC, the key state while there is no key, HC, SH, the
units' transients, and the model's own counter (10_state R23, R29 to R33, R41). -/
def State.sameToHost (s t : State) : Prop :=
  s.params = t.params ∧ s.pending = t.pending ∧ s.rsp = t.rsp ∧ s.stat = t.stat ∧
    s.seq = t.seq ∧ s.cause = t.cause ∧ s.finfo = t.finfo ∧
    (∀ k : BitVec 4, (s.getCtx k).sameToHost (t.getCtx k)) ∧
    s.keyed = t.keyed ∧ s.accLen = t.accLen ∧
    (s.keyed = true →
      s.halg = t.halg ∧ s.kipad = t.kipad ∧ s.kopad = t.kopad ∧ s.accMessage = t.accMessage)

/-- The act hardware-resets the block: RST between commands, or while a command runs (70_reset R300). -/
def HostAct.resets : HostAct → Bool
  | .reset => true
  | .commandAbandoned _ => true
  | .command _ => false
  | .statRead _ => false

/-- The act is answered at RSP (30_encoding R90). -/
def HostAct.answered : HostAct → Bool
  | .command _ => true
  | .reset => false
  | .commandAbandoned _ => false
  | .statRead _ => false

/-! ### The unrolled form of the MD5 transform (41_md5 R172), written from the step table of R182 -/

/-- R182, the rows of round 1: `k(i)`, `s(i)`, `T[i]`. -/
def rfcRound1 : List (Fin 16 × Nat × Word) :=
  [(0, 7, 0xD76AA478), (1, 12, 0xE8C7B756), (2, 17, 0x242070DB), (3, 22, 0xC1BDCEEE),
   (4, 7, 0xF57C0FAF), (5, 12, 0x4787C62A), (6, 17, 0xA8304613), (7, 22, 0xFD469501),
   (8, 7, 0x698098D8), (9, 12, 0x8B44F7AF), (10, 17, 0xFFFF5BB1), (11, 22, 0x895CD7BE),
   (12, 7, 0x6B901122), (13, 12, 0xFD987193), (14, 17, 0xA679438E), (15, 22, 0x49B40821)]

/-- R182, the rows of round 2: `k(i)`, `s(i)`, `T[i]`. -/
def rfcRound2 : List (Fin 16 × Nat × Word) :=
  [(1, 5, 0xF61E2562), (6, 9, 0xC040B340), (11, 14, 0x265E5A51), (0, 20, 0xE9B6C7AA),
   (5, 5, 0xD62F105D), (10, 9, 0x02441453), (15, 14, 0xD8A1E681), (4, 20, 0xE7D3FBC8),
   (9, 5, 0x21E1CDE6), (14, 9, 0xC33707D6), (3, 14, 0xF4D50D87), (8, 20, 0x455A14ED),
   (13, 5, 0xA9E3E905), (2, 9, 0xFCEFA3F8), (7, 14, 0x676F02D9), (12, 20, 0x8D2A4C8A)]

/-- R182, the rows of round 3: `k(i)`, `s(i)`, `T[i]`. -/
def rfcRound3 : List (Fin 16 × Nat × Word) :=
  [(5, 4, 0xFFFA3942), (8, 11, 0x8771F681), (11, 16, 0x6D9D6122), (14, 23, 0xFDE5380C),
   (1, 4, 0xA4BEEA44), (4, 11, 0x4BDECFA9), (7, 16, 0xF6BB4B60), (10, 23, 0xBEBFBC70),
   (13, 4, 0x289B7EC6), (0, 11, 0xEAA127FA), (3, 16, 0xD4EF3085), (6, 23, 0x04881D05),
   (9, 4, 0xD9D4D039), (12, 11, 0xE6DB99E5), (15, 16, 0x1FA27CF8), (2, 23, 0xC4AC5665)]

/-- R182, the rows of round 4: `k(i)`, `s(i)`, `T[i]`. -/
def rfcRound4 : List (Fin 16 × Nat × Word) :=
  [(0, 6, 0xF4292244), (7, 10, 0x432AFF97), (14, 15, 0xAB9423A7), (5, 21, 0xFC93A039),
   (12, 6, 0x655B59C3), (3, 10, 0x8F0CCC92), (10, 15, 0xFFEFF47D), (1, 21, 0x85845DD1),
   (8, 6, 0x6FA87E4F), (15, 10, 0xFE2CE6E0), (6, 15, 0xA3014314), (13, 21, 0x4E0811A1),
   (4, 6, 0xF7537E82), (11, 10, 0xBD3AF235), (2, 15, 0x2AD7D2BB), (9, 21, 0xEB86D391)]

/-- R182: the step table, rows 0 to 63. -/
def rfcTable : List (Fin 16 × Nat × Word) := rfcRound1 ++ rfcRound2 ++ rfcRound3 ++ rfcRound4

/-- R174 to R177, R182: the function of step `i`: F, G, H, I for the four rounds. -/
def rfcFunction (i : Nat) (x y z : Word) : Word :=
  match i / 16 with
  | 0 => (x &&& y) ||| (~~~x &&& z)
  | 1 => (x &&& z) ||| (y &&& ~~~z)
  | 2 => x ^^^ y ^^^ z
  | _ => y ^^^ (x ||| ~~~z)

/-- One operation `[abcd k s i]` of RFC 1321 on the registers A, B, C, D, whose roles rotate one place each step:
`a = b + ((a + f(b,c,d) + X[k] + T[i]) <<< s)`. -/
def rfcStep (x : Vector Word 16) (r : Vector Word 4) (i : Nat) : Vector Word 4 :=
  let role (n : Nat) : Fin 4 := Fin.ofNat 4 (4 - i % 4 + n)
  let row := rfcTable.getD i (0, 0, 0)
  let sum := r[role 0] + rfcFunction i r[role 1] r[role 2] r[role 3] + x[row.1] + row.2.2
  r.set (role 0).val (r[role 1] + sum.rotateLeft row.2.1) (role 0).isLt

end Sys2Proof.Machine
end

