-- ==== Sys2Proof/Certificates/Slice0/Obligations.lean ====
section
/-! DEFINITION. The statements for the provers, from the numbered rules of spec/. `exec i s` runs command `i` with the
transaction at the CMD port of `s` (`s.cmd`, log 5); a fault is a next state (`State.faulted`, log 15). -/

open Sys2Proof Sys2Proof.Machine

/-! ### The command word (30_encoding) -/

/-- R91, R94, R95: decoding the word of a well formed command gives the command back, whatever its operands. -/
def Obligations.DecodeOfEncode : Prop :=
  ∀ i : Instr, i.wf = true → decode (encode i) = .command i

/-- R91, R94, R95: a word that decodes to a command is well formed and is that command's word: no bit is dropped. -/
def Obligations.EncodeOfDecode : Prop :=
  ∀ (cw : Word) (i : Instr), decode cw = .command i → i.wf = true ∧ encode i = cw

/-- R95: a word is a command, well formed, exactly when it matches that command's row of the opcode table. -/
def Obligations.DecodeMatchesOpcodeTable : Prop :=
  ∀ cw : Word,
    (∀ i, decode cw = .command i → (rowMatch i, rowMask i) ∈ opcodeRows ∧ cw &&& rowMask i = rowMatch i) ∧
      ∀ row ∈ opcodeRows, cw &&& row.2 = row.1 → ∃ i, decode cw = .command i ∧ (rowMatch i, rowMask i) = row

/-- R96, R97, R98: every word matches exactly one row and is that command, or matches none and is refused for one of the
two named reasons: OPC names no command, or OPC names one and a must-be-zero field is not zero. -/
def Obligations.EveryWordHasOneOutcome : Prop :=
  ∀ cw : Word,
    ((∃ i, decode cw = .command i) ↔ (opcodeRows.filter fun row => cw &&& row.2 == row.1).length = 1) ∧
      (opcodeRows.filter fun row => cw &&& row.2 == row.1).length ≤ 1 ∧
      (decode cw = .illegalOpc ↔ ¬ opcodeLegal cw) ∧
      (decode cw = .reserved ↔ opcodeLegal cw ∧ strayBit cw)

/-- R95: the worked encodings of the rule, a word of each of the ten commands. -/
def Obligations.WorkedEncodingsDecode : Prop :=
  decode 0x00000001 = .command (.dInit 0 .md5) ∧ decode 0x00001011 = .command (.dInit 1 .sha1) ∧
    decode 0x00000012 = .command (.dReset 1) ∧ decode 0x00030003 = .command (.dUpdate 0 3) ∧
    decode 0x00000013 = .command (.dUpdate 1 0) ∧ decode 0x00000004 = .command (.dDigest 0) ∧
    decode 0x00000015 = .command (.dClone 1 0) ∧ decode 0x00000016 = .command (.dLen 1) ∧
    decode 0x00041007 = .command (.hKey .sha1 4) ∧ decode 0x00040007 = .command (.hKey .md5 4) ∧
    decode 0x00000008 = .command .hReset ∧ decode 0x001C0009 = .command (.hUpdate 28) ∧
    decode 0x0000000A = .command .hDigest

/-! ### One step: one act of the host (00_scope R8, R9; 30_encoding R90; 20_memory R71) -/

/-- R34, R71, R90, R97: in IDLE the oldest pending transaction is taken to the CMD port, and when its word decodes to a
command the step is that command; the step adds nothing around `exec`. With no act of the host the block waits. -/
def Obligations.StepRunsDecodedCommand : Prop :=
  (∀ (s : State) (tr : Transaction) (rest : List HostAct) (i : Instr),
    s.pending = .command tr :: rest → s.seq = .idle → decode tr.cw = .command i →
      step s = exec i { s with pending := rest, cmd := tr }) ∧
    ∀ s : State, s.pending = [] → step s = .next s

/-- R262: a word whose OPC names no command takes F_ILLEGAL_OPC, whatever its other fields and its payload. -/
def Obligations.IllegalOpcodeFaults : Prop :=
  ∀ (s : State) (tr : Transaction) (rest : List HostAct),
    s.pending = .command tr :: rest → s.seq = .idle → ¬ opcodeLegal tr.cw →
      step s = .next ((s.atPort tr rest).faulted 0x01)

/-- R263, with the fields of R96: a legal OPC and a bit of a must-be-zero field set take F_RESERVED, whatever the payload;
such a word is one that differs from the match value of the row OPC selects. -/
def Obligations.ReservedFieldFaults : Prop :=
  ∀ (s : State) (tr : Transaction) (rest : List HostAct),
    s.pending = .command tr :: rest → s.seq = .idle → opcodeLegal tr.cw →
      (strayBit tr.cw → step s = .next ((s.atPort tr rest).faulted 0x02)) ∧
        ∀ row ∈ opcodeRows, tr.cw &&& 0xF = row.1 → (strayBit tr.cw ↔ tr.cw &&& row.2 ≠ row.1)

/-- R273: in FAULTED a transaction is not decoded, is answered `(FAULT, empty)` and changes nothing else, so CAUSE and
FINFO keep the first fault; status reads work. -/
def Obligations.FaultedRefusesCommands : Prop :=
  ∀ (s : State) (rest : List HostAct), s.seq = .faulted →
    (∀ tr, s.pending = .command tr :: rest →
      step s = .next { s with pending := rest, rsp := s.rsp ++ [⟨.fault, []⟩] }) ∧
    ∀ n, s.pending = .statRead n :: rest →
      step s = .next { s with pending := rest, stat := s.stat ++ [s.statRead n] }

/-- R101: a status read returns status register `n` as it stands, 0 for any other `n`, and changes nothing else, in
FAULTED too. -/
def Obligations.StatusReadReturnsRegister : Prop :=
  ∀ (s : State) (n : Nat) (rest : List HostAct), s.pending = .statRead n :: rest →
    step s = .next { s with
      pending := rest
      stat := s.stat ++ [if n = 0 then s.statusWord else if n = 1 then s.finfo else if n = 2 then s.ctxvWord else 0] }

/-- R37: every bit of STATUS. -/
def Obligations.StatusWordLayout : Prop :=
  ∀ s : State,
    s.statusWord.getLsbD 0 = decide (s.seq = .faulted) ∧
      s.statusWord.getLsbD 1 = s.keyed ∧
      s.statusWord.getLsbD 2 = (s.keyed && decide (s.halg = .sha1)) ∧
      s.statusWord.extractLsb' 3 5 = 0 ∧
      s.statusWord.extractLsb' 8 8 = s.cause ∧
      s.statusWord.extractLsb' 16 16 = 0

/-- R37: every bit of CTXV: `V[k]`, 0 for a context number of NCTX or more, and `A[k]`. That `A[k]` too is 0 for a
context number of NCTX or more is no rule but the model's reading (log 17): R37 has `A[k]` follow `CTX[k].VALID` alone,
and there is no such context. -/
def Obligations.CtxvWordLayout : Prop :=
  ∀ (s : State) (k : BitVec 4),
    s.ctxvWord.getLsbD k.toNat = (decide (k.toNat < s.params.nctx) && (s.getCtx k).valid) ∧
      s.ctxvWord.getLsbD (16 + k.toNat) =
        (decide (k.toNat < s.params.nctx) && (s.getCtx k).valid && decide ((s.getCtx k).alg = .sha1))

/-- R41, R300: RST, in any state, between commands or while one runs, leaves every VALID, KEYED, ACC_LEN, STATUS, FINFO
and CTXV 0 and SEQ IDLE; it gives no response. -/
def Obligations.HardwareResetLeaves : Prop :=
  ∀ (s : State) (act : HostAct) (rest : List HostAct), s.pending = act :: rest →
    (act = .reset ∨ ∃ tr, act = .commandAbandoned tr) →
      ∃ t, step s = .next t ∧ (∀ k, (t.getCtx k).valid = false) ∧ t.keyed = false ∧ t.accLen = 0 ∧
        t.statusWord = 0 ∧ t.finfo = 0 ∧ t.ctxvWord = 0 ∧ t.seq = .idle ∧
        t.rsp = s.rsp ∧ t.stat = s.stat ∧ t.pending = rest ∧ t.params = s.params

/-- R41: the values the spec gives for the state after hardware reset, at `State.reset`. The values it does not give are
the model's (log 6) and are not stated. -/
def Obligations.ResetStateValues : Prop :=
  (∀ k, (State.reset.getCtx k).valid = false) ∧ State.reset.keyed = false ∧ State.reset.accLen = 0 ∧
    State.reset.statusWord = 0 ∧ State.reset.finfo = 0 ∧ State.reset.ctxvWord = 0 ∧ State.reset.seq = .idle

/-- R90, R93: a step carries out the oldest act alone: a transaction is answered by exactly one response, and its bytes
are empty when it is FAULT; nothing else is answered. -/
def Obligations.OneResponsePerCommand : Prop :=
  ∀ (s t : State) (act : HostAct) (rest : List HostAct), s.pending = act :: rest → step s = .next t →
    t.pending = rest ∧
      (act.answered = true →
        ∃ r, t.rsp = s.rsp ++ [r] ∧ (r.code = .fault ↔ t.seq = .faulted) ∧ (r.code = .fault → r.bytes = [])) ∧
      (act.answered = false → t.rsp = s.rsp)

/-! ### Faults (60_exceptions) -/

/-- R270, R271: the checks of a transaction, in their order: the first that fails is the one fault taken; if none fails
no fault is taken. -/
def Obligations.FaultOrder : Prop :=
  ∀ (s : State) (tr : Transaction) (rest : List HostAct), s.pending = .command tr :: rest → s.seq = .idle →
    match expectedPortFault (s.atPort tr rest) with
    | some n => step s = .next ((s.atPort tr rest).faulted n)
    | none => ∀ t, step s = .next t → t.seq = .idle

/-- R264: a payload of another length than the command announces takes F_LEN, for all ten commands. -/
def Obligations.PayloadLengthFaults : Prop :=
  ∀ (i : Instr) (s : State), s.cmd.payload.length ≠ announced i → exec i s = .next (s.faulted 0x03)

/-- R265: a context number of NCTX or more takes F_BAD_CTX; with `NCTX = 16` it cannot occur. -/
def Obligations.ContextNumberFaults : Prop :=
  ∀ (i : Instr) (s : State),
    (∀ k ∈ contextsNamed i, s.cmd.payload.length = announced i → s.params.nctx ≤ k.toNat →
      exec i s = .next (s.faulted 0x04)) ∧
    (s.params.nctx = 16 → exec i s ≠ .next (s.faulted 0x04))

/-- R266: a command that needs the contents of a context that is not valid takes F_CTX_INVALID: `CTX` for D_RESET,
D_UPDATE, D_DIGEST and D_LEN, the source alone for D_CLONE; D_INIT never does. -/
def Obligations.InvalidContextFaults : Prop :=
  ∀ (i : Instr) (s : State),
    (∀ k, contextRead i = some k → s.cmd.payload.length = announced i →
      (∀ j ∈ contextsNamed i, j.toNat < s.params.nctx) → (s.getCtx k).valid = false →
        exec i s = .next (s.faulted 0x05)) ∧
    (contextRead i = none → exec i s ≠ .next (s.faulted 0x05)) ∧
    (∀ dst src, i = .dClone dst src → (s.getCtx src).valid = true → exec i s ≠ .next (s.faulted 0x05))

/-- R267: H_RESET, H_UPDATE and H_DIGEST without a key take F_HMAC_UNKEYED. -/
def Obligations.UnkeyedFaults : Prop :=
  ∀ (i : Instr) (s : State), (i = .hReset ∨ (∃ len, i = .hUpdate len) ∨ i = .hDigest) →
    s.cmd.payload.length = announced i → s.keyed = false → exec i s = .next (s.faulted 0x06)

/-- R268: an H_UPDATE that would exceed ACC_CAP takes F_ACC_OVERFLOW and appends nothing; with ACC_CAP unbounded it
cannot occur. -/
def Obligations.AccumulatorOverflowFaults : Prop :=
  ∀ (len : Nat) (s : State),
    (∀ cap, s.params.accCap = some cap → s.cmd.payload.length = len → s.keyed = true → cap < s.accLen + len →
      exec (.hUpdate len) s = .next (s.faulted 0x07)) ∧
    (s.params.accCap = none → exec (.hUpdate len) s ≠ .next (s.faulted 0x07))

/-- R244, R269: both digests fit in 64 bytes, so F_HMAC_DIGEST_TOO_LONG is unreachable. -/
def Obligations.DigestNeverTooLong : Prop :=
  (∀ alg : Alg, 4 * digestWords alg ≤ 64) ∧ ∀ (i : Instr) (s : State), exec i s ≠ .next (s.faulted 0x08)

/-- R272: after a fault every context, the HMAC core, CTXV and the units are what they were. -/
def Obligations.FaultsArePrecise : Prop :=
  ∀ s t : State, step s = .next t → s.seq = .idle → t.seq = .faulted →
    t.ctx = s.ctx ∧ t.ctxvWord = s.ctxvWord ∧ t.hc = s.hc ∧ t.sh = s.sh ∧ t.kipad = s.kipad ∧ t.kopad = s.kopad ∧
      t.acc = s.acc ∧ t.accLen = s.accLen ∧ t.keyed = s.keyed ∧ t.halg = s.halg ∧ t.md5 = s.md5 ∧
      t.sha1 = s.sha1 ∧ t.params = s.params ∧ t.stat = s.stat ∧ t.draws = s.draws

/-- R274, R301, R312: only hardware reset leaves FAULTED, and while it lasts CAUSE, FINFO, every context and the HMAC
core keep their values. -/
def Obligations.OnlyResetLeavesFaulted : Prop :=
  ∀ s t : State, step s = .next t → s.seq = .faulted →
    (∃ act rest, s.pending = act :: rest ∧ act.resets = true) ∨
      (t.seq = .faulted ∧ t.cause = s.cause ∧ t.finfo = s.finfo ∧ t.ctx = s.ctx ∧ t.keyed = s.keyed ∧
        t.halg = s.halg ∧ t.kipad = s.kipad ∧ t.kopad = s.kopad ∧ t.acc = s.acc ∧ t.accLen = s.accLen)

/-! ### The digest commands (40_hash_engine) -/

/-- R140, R121, R171, R201: D_INIT completes on any existing context, valid or not: VALID, ALG, FI, the counter and the
working words as `Init` gives them, BUF kept, nothing else changed, response `(OK, empty)`. -/
def Obligations.DInitResult : Prop :=
  ∀ (k : BitVec 4) (alg : Alg) (s : State), s.cmd.payload = [] → k.toNat < s.params.nctx →
    exec (.dInit k alg) s = .next { s with
      ctx := s.ctx.set k.toNat
        { valid := true
          alg := alg
          buf := (s.getCtx k).buf
          fi := 0
          bcLo := 0
          bcHi := 0
          h := match alg with
            | .md5 => #v[0x67452301, 0xEFCDAB89, 0x98BADCFE, 0x10325476, 0x00000000]
            | .sha1 => #v[0x67452301, 0xEFCDAB89, 0x98BADCFE, 0x10325476, 0xC3D2E1F0] } k.isLt
      rsp := s.rsp ++ [⟨.ok, []⟩] }

/-- R141: D_RESET completes on any valid context: the state D_INIT leaves, with the algorithm kept. -/
def Obligations.DResetResult : Prop :=
  ∀ (k : BitVec 4) (s : State), s.cmd.payload = [] → k.toNat < s.params.nctx → (s.getCtx k).valid = true →
    exec (.dReset k) s = .next { s with
      ctx := s.ctx.set k.toNat
        { valid := true
          alg := (s.getCtx k).alg
          buf := (s.getCtx k).buf
          fi := 0
          bcLo := 0
          bcHi := 0
          h := match (s.getCtx k).alg with
            | .md5 => #v[0x67452301, 0xEFCDAB89, 0x98BADCFE, 0x10325476, 0x00000000]
            | .sha1 => #v[0x67452301, 0xEFCDAB89, 0x98BADCFE, 0x10325476, 0xC3D2E1F0] } k.isLt
      rsp := s.rsp ++ [⟨.ok, []⟩] }

/-- R142, R123: D_UPDATE completes on any valid context whose FI is at most 63, as R24 has it: the whole blocks of the
live bytes and the payload together are compressed in order, the counter grows by their number (it wraps at `2^64`), the
rest is left in BUF; the context, the transform units' transients and the response change, and nothing else; with no
payload bytes the response alone. With FI beyond 63, which no run reaches, writing would leave BUF, and R62 asks for a
refusal (log 9). -/
def Obligations.DUpdateResult : Prop :=
  ∀ (k : BitVec 4) (len : Nat) (s : State), s.cmd.payload.length = len → k.toNat < s.params.nctx →
    (s.getCtx k).valid = true →
    ((s.getCtx k).fi.toNat ≤ 63 →
      ∃ (c : Context) (md5 : Md5Unit) (sha1 : Sha1Unit),
        exec (.dUpdate k len) s = .next { s with
          ctx := s.ctx.set k.toNat c k.isLt
          md5 := md5
          sha1 := sha1
          rsp := s.rsp ++ [⟨.ok, []⟩] } ∧
        c.valid = true ∧ c.alg = (s.getCtx k).alg ∧
        c.fi.toNat = ((s.getCtx k).fi.toNat + len) % 64 ∧
        c.counter = ((s.getCtx k).counter + ((s.getCtx k).fi.toNat + len) / 64) % 2 ^ 64 ∧
        c.h = hashBlocks c.alg (s.getCtx k).h (wholeBlocks ((s.getCtx k).live ++ s.cmd.payload)) ∧
        c.live = leftover ((s.getCtx k).live ++ s.cmd.payload) ∧
        (len = 0 → c = s.getCtx k ∧ md5 = s.md5 ∧ sha1 = s.sha1)) ∧
    (64 ≤ (s.getCtx k).fi.toNat → exec (.dUpdate k len) s = .refused .bufIndexOutOfRange)

/-- R123, R76: the live bytes of BUF after D_UPDATE: payload bytes go to `FI` and up until the block completes, whole
blocks go to the transform directly, and the tail goes to byte 0 and up. What the dead bytes, at the new FI and above,
hold is no rule (R23 lets them be anything) but the model's choice (log 12): what the pseudocode of R123 leaves there,
so a byte nothing was written to is unchanged. -/
def Obligations.DUpdateWritesBuf : Prop :=
  ∀ (k : BitVec 4) (s : State) (j : Fin 64), k.toNat < s.params.nctx → (s.getCtx k).valid = true →
    (s.getCtx k).fi.toNat ≤ 63 →
      ∃ t, exec (.dUpdate k s.cmd.payload.length) s = .next t ∧
        let fi := (s.getCtx k).fi.toNat
        let n := s.cmd.payload.length
        (fi + n < 64 →
          some (t.getCtx k).buf[j] =
            if fi ≤ j.val ∧ j.val < fi + n then s.cmd.payload[j.val - fi]? else some (s.getCtx k).buf[j]) ∧
        (64 ≤ fi + n →
          some (t.getCtx k).buf[j] =
            if j.val < (fi + n) % 64 then s.cmd.payload[n - (fi + n) % 64 + j.val]?
            else if 0 < fi ∧ fi ≤ j.val then s.cmd.payload[j.val - fi]?
            else some (s.getCtx k).buf[j])

/-- R143, R126 to R133: D_DIGEST completes on any valid context whose FI is at most 63, as R24 has it, and answers the
digest words, after the padded end of the message has been compressed, as 16 bytes (MD5) or 20 (SHA-1); SH, the units'
transients and the response change, and nothing else. With FI beyond 63, which no run reaches, the padding would be
written outside BUF, and R62 asks for a refusal (log 9). -/
def Obligations.DDigestResult : Prop :=
  ∀ (k : BitVec 4) (s : State), s.cmd.payload = [] → k.toNat < s.params.nctx → (s.getCtx k).valid = true →
    ((s.getCtx k).fi.toNat ≤ 63 →
      ∃ (sh : Context) (md5 : Md5Unit) (sha1 : Sha1Unit) (r : ByteString),
        exec (.dDigest k) s = .next { s with
          sh := sh
          md5 := md5
          sha1 := sha1
          rsp := s.rsp ++ [⟨.ok, r⟩] } ∧
        r = extract (s.getCtx k).alg (hashBlocks (s.getCtx k).alg (s.getCtx k).h
          (wholeBlocks (paddedEnd (s.getCtx k).alg (s.getCtx k).live (s.getCtx k).bitLo (s.getCtx k).bitHi))) ∧
        r.length = match (s.getCtx k).alg with
          | .md5 => 16
          | .sha1 => 20) ∧
    (64 ≤ (s.getCtx k).fi.toNat → exec (.dDigest k) s = .refused .bufIndexOutOfRange)

/-- R134, R308: D_DIGEST writes no context, and the same D_DIGEST again gives the same response. -/
def Obligations.DigestDoesNotMutate : Prop :=
  ∀ (k : BitVec 4) (s t : State), exec (.dDigest k) s = .next t →
    t.ctx = s.ctx ∧ ∃ r u, t.rsp = s.rsp ++ [r] ∧ exec (.dDigest k) t = .next u ∧ u.rsp = t.rsp ++ [r]

/-- R135, R283: D_DIGEST of a context straight from `Init` answers the digest of the one block `80`, zeros, length 0. -/
def Obligations.EmptyMessageDigest : Prop :=
  ∀ (k : BitVec 4) (s : State) (c : Context) (alg : Alg), s.cmd.payload = [] → k.toNat < s.params.nctx →
    s.getCtx k = c.init alg →
      ∃ t, exec (.dDigest k) s = .next t ∧
        t.rsp = s.rsp ++ [⟨.ok, extract alg (compress alg (initialWords alg) (0x80 :: zeros 63))⟩]

/-- R144: D_CLONE completes whenever the source is valid, whatever the destination holds: every field is copied, and
nothing else changes; `dst = src` is legal. -/
def Obligations.DCloneResult : Prop :=
  ∀ (dst src : BitVec 4) (s : State), s.cmd.payload = [] → dst.toNat < s.params.nctx → src.toNat < s.params.nctx →
    (s.getCtx src).valid = true →
      exec (.dClone dst src) s = .next { s with
        ctx := s.ctx.set dst.toNat (s.getCtx src) dst.isLt
        rsp := s.rsp ++ [⟨.ok, []⟩] }

/-- R145: D_LEN completes on any valid context and answers the one byte 0x10 or 0x14; nothing else changes. -/
def Obligations.DLenResult : Prop :=
  ∀ (k : BitVec 4) (s : State), s.cmd.payload = [] → k.toNat < s.params.nctx → (s.getCtx k).valid = true →
    exec (.dLen k) s = .next { s with
      rsp := s.rsp ++ [⟨.ok, [match (s.getCtx k).alg with
        | .md5 => 0x10
        | .sha1 => 0x14]⟩] }

/-- R39, R146: what the six digest commands leave unchanged: the HMAC core (every byte of KIPAD, KOPAD and ACC), every
context but the one they write, the parameters and the ports but RSP. -/
def Obligations.DigestCommandsFrame : Prop :=
  ∀ (i : Instr) (s t : State), isDigestCommand i = true → exec i s = .next t →
    (∀ k : BitVec 4, contextWritten i ≠ some k → t.getCtx k = s.getCtx k) ∧
      t.hc = s.hc ∧ t.kipad = s.kipad ∧ t.kopad = s.kopad ∧ t.acc = s.acc ∧ t.accLen = s.accLen ∧
      t.keyed = s.keyed ∧ t.halg = s.halg ∧ t.params = s.params ∧ t.pending = s.pending ∧ t.cmd = s.cmd ∧
      t.stat = s.stat ∧ t.draws = s.draws ∧
      ((∀ k, i ≠ .dDigest k) → t.sh = s.sh) ∧
      ((∀ k n, i ≠ .dUpdate k n) → (∀ k, i ≠ .dDigest k) → t.md5 = s.md5 ∧ t.sha1 = s.sha1)

/-! ### The engine's procedures (40_hash_engine) -/

/-- R122: `IncBC` adds one to the 64-bit counter held in two halves, the low half carrying into the high half, and wraps;
it changes nothing else of the context. -/
def Obligations.IncBcCountsModulo : Prop :=
  ∀ c : Context,
    c.incBc.counter = (c.counter + 1) % 2 ^ 64 ∧ c.incBc.bcLo = c.bcLo + 1 ∧
      c.incBc = { c with bcLo := c.incBc.bcLo, bcHi := c.incBc.bcHi }

/-- R127: the bit count modulo `2^64`, and its halves as the shifts of the rule; `Finalize` does not move the counter. -/
def Obligations.BitCountHalves : Prop :=
  (∀ c : Context, c.fi.toNat ≤ 63 →
    c.bitTotal.toNat = (512 * (c.bcHi.toNat * 2 ^ 32 + c.bcLo.toNat) + 8 * c.fi.toNat) % 2 ^ 64 ∧
      c.bitLo = (c.bcLo <<< 9) ||| (c.fi.setWidth 32 <<< 3) ∧
      c.bitHi = (c.bcHi <<< 9) ||| (c.bcLo >>> 23)) ∧
    ∀ (e : Engine) (lo hi : Word), e.c.fi.toNat ≤ 63 →
      (e.finalize lo hi).c.bcLo = e.c.bcLo ∧ (e.finalize lo hi).c.bcHi = e.c.bcHi

/-- R128 to R132: what `Finalize` compresses: with `FI <= 55` the one block `M || 80 || zeros(55 - FI) || length`, with
`FI >= 56` the block `M || 80 || zeros(63 - FI)` and then `zeros(56) || length`; the length field has the low half
first, little-endian, for MD5, and the high half first, big-endian, for SHA-1; FI and ALG are kept. -/
def Obligations.FinalizeCompressesPaddedBlocks : Prop :=
  ∀ (e : Engine) (lo hi : Word), e.c.fi.toNat ≤ 63 →
    let field := match e.c.alg with
      | .md5 => le32bytes lo ++ le32bytes hi
      | .sha1 => be32bytes hi ++ be32bytes lo
    (e.c.fi.toNat ≤ 55 → (e.finalize lo hi).c.h =
      compress e.c.alg e.c.h (e.c.live ++ 0x80 :: zeros (55 - e.c.fi.toNat) ++ field)) ∧
    (56 ≤ e.c.fi.toNat → (e.finalize lo hi).c.h =
      compress e.c.alg (compress e.c.alg e.c.h (e.c.live ++ 0x80 :: zeros (63 - e.c.fi.toNat)))
        (zeros 56 ++ field)) ∧
    (e.finalize lo hi).c.fi = e.c.fi ∧ (e.finalize lo hi).c.alg = e.c.alg

/-- R125: feeding two strings one after the other leaves the context, dead bytes of BUF apart, as feeding them together
does, and every later digest is the same. -/
def Obligations.ChunkingInvariance : Prop :=
  ∀ (e : Engine) (d1 d2 : ByteString), e.c.fi.toNat ≤ 63 →
    let twice := (e.update d1).update d2
    let once := e.update (d1 ++ d2)
    twice.c.valid = once.c.valid ∧ twice.c.alg = once.c.alg ∧ twice.c.fi = once.c.fi ∧
      twice.c.bcLo = once.c.bcLo ∧ twice.c.bcHi = once.c.bcHi ∧ twice.c.h = once.c.h ∧
      twice.c.live = once.c.live ∧ ∀ later, (twice.update later).digest.2 = (once.update later).digest.2

/-- R120, R125, R126, R134: the digest commands hash the message: D_INIT holds the empty message, D_UPDATE appends its
payload to the message held, D_CLONE copies it, and D_DIGEST answers the digest of the whole message. -/
def Obligations.DigestCommandsHashTheMessage : Prop :=
  ∀ (s t : State) (k : BitVec 4) (alg : Alg) (msg : ByteString), s.seq = .idle → t.seq = .idle →
    (exec (.dInit k alg) s = .next t → (t.getCtx k).holds alg []) ∧
    ((s.getCtx k).holds alg msg →
      (exec (.dReset k) s = .next t → (t.getCtx k).holds alg []) ∧
      (∀ len, exec (.dUpdate k len) s = .next t → (t.getCtx k).holds alg (msg ++ s.cmd.payload)) ∧
      (∀ dst, exec (.dClone dst k) s = .next t → (t.getCtx dst).holds alg msg ∧ (t.getCtx k).holds alg msg) ∧
      (exec (.dDigest k) s = .next t →
        t.rsp = s.rsp ++ [⟨.ok, messageDigest alg msg⟩] ∧ (t.getCtx k).holds alg msg))

/-! ### The transforms (41_md5_compression, 42_sha1_compression) -/

/-- R172 to R182: the rolled form of the MD5 transform, where the registers are renamed after every step, computes what
RFC 1321's unrolled form computes, where the roles of A, B, C, D rotate, with the function, `k(i)`, `s(i)` and `T[i]` of
each row of the table of R182 and the little-endian block words of R173. -/
def Obligations.Md5RolledIsUnrolled : Prop :=
  ∀ (h : Vector Word 5) (block : ByteString),
    let x : Vector Word 16 := Vector.ofFn fun j =>
      blockByte block (4 * j + 3) ++ blockByte block (4 * j + 2) ++ blockByte block (4 * j + 1) ++
        blockByte block (4 * j)
    let r := (List.range 64).foldl (rfcStep x) #v[h[0], h[1], h[2], h[3]]
    md5Transform h block = #v[h[0] + r[0], h[1] + r[1], h[2] + r[2], h[3] + r[3], h[4]]

/-- R202 to R211: the SHA-1 transform, written out. The schedule is the 16 big-endian block words, then each word from
the four before it, rotated by one. The registers `r t` before step `t` begin as the chaining value, and each of the 80
steps updates all five from the old ones, with the function and the constant of its round; the feed-forward adds the
registers after the last step to the chaining value, and the engine writes the result to `H[0..4]`. -/
def Obligations.Sha1ScheduleAndSteps : Prop :=
  ∀ (h : Vector Word 5) (block : ByteString),
    let w := sha1Schedule block
    (∀ (t : Nat) (ht : t < 80),
      (t < 16 → w[t] =
        blockByte block (4 * t) ++ blockByte block (4 * t + 1) ++ blockByte block (4 * t + 2) ++
          blockByte block (4 * t + 3)) ∧
      (16 ≤ t → w[t] = (w[t - 3] ^^^ w[t - 8] ^^^ w[t - 14] ^^^ w[t - 16]).rotateLeft 1)) ∧
    (∃ r : Nat → Vector Word 5, r 0 = h ∧
      (∀ (t : Nat) (ht : t < 80),
        let a := (r t)[0]
        let b := (r t)[1]
        let c := (r t)[2]
        let d := (r t)[3]
        let e := (r t)[4]
        let f :=
          if t ≤ 19 then (b &&& c) ||| (~~~b &&& d)
          else if t ≤ 39 then b ^^^ c ^^^ d
          else if t ≤ 59 then (b &&& c) ||| (b &&& d) ||| (c &&& d)
          else b ^^^ c ^^^ d
        let k : Word :=
          if t ≤ 19 then 0x5A827999
          else if t ≤ 39 then 0x6ED9EBA1
          else if t ≤ 59 then 0x8F1BBCDC
          else 0xCA62C1D6
        r (t + 1) = #v[a.rotateLeft 5 + f + e + w[t] + k, a, b.rotateLeft 30, c, d]) ∧
      sha1Transform h block =
        #v[h[0] + (r 80)[0], h[1] + (r 80)[1], h[2] + (r 80)[2], h[3] + (r 80)[3], h[4] + (r 80)[4]]) ∧
    ∀ e : Engine, e.c.alg = .sha1 → e.c.h = h → (e.transform block).c.h = sha1Transform h block

/-- R213: the other forms of Ch and Maj are the same functions. -/
def Obligations.LogicFunctionAlternates : Prop :=
  ∀ x y z : Word, sha1Ch x y z = z ^^^ (x &&& (y ^^^ z)) ∧ sha1Maj x y z = (x &&& y) ||| (z &&& (x ||| y))

/-! ### The HMAC core (43_hmac) -/

/-- R231 to R234: H_KEY completes in every state: the two pads are the key, replaced by its digest when longer than 64
bytes, padded with zeros and XORed; HALG, ACC_LEN and KEYED as the rule says; a key of at most 64 bytes touches neither
HC nor SH nor the units; nothing else changes. -/
def Obligations.HKeyResult : Prop :=
  ∀ (alg : Alg) (len : Nat) (s : State), s.cmd.payload.length = len →
    ∃ (hc sh : Context) (md5 : Md5Unit) (sha1 : Sha1Unit) (kipad kopad : Vector Byte 64),
      exec (.hKey alg len) s = .next { s with
        hc := hc
        sh := sh
        md5 := md5
        sha1 := sha1
        kipad := kipad
        kopad := kopad
        halg := alg
        accLen := 0
        keyed := true
        rsp := s.rsp ++ [⟨.ok, []⟩] } ∧
      kipad.toList = hmacPad alg s.cmd.payload 0x36 ∧ kopad.toList = hmacPad alg s.cmd.payload 0x5C ∧
      (len ≤ 64 → hc = s.hc ∧ sh = s.sh ∧ md5 = s.md5 ∧ sha1 = s.sha1)

/-- R235: H_RESET completes whenever the core is keyed: ACC_LEN is 0, and nothing else changes, the bytes of ACC and both
pads included. -/
def Obligations.HResetResult : Prop :=
  ∀ s : State, s.cmd.payload = [] → s.keyed = true →
    exec .hReset s = .next { s with accLen := 0, rsp := s.rsp ++ [⟨.ok, []⟩] }

/-- R236: H_UPDATE completes whenever the core is keyed and there is room: the payload is stored at ACC_LEN and up, every
other byte of ACC is unchanged, the message grows by the payload, and nothing else changes, HC included. -/
def Obligations.HUpdateResult : Prop :=
  ∀ (len : Nat) (s : State), s.cmd.payload.length = len → s.keyed = true →
    (∀ cap, s.params.accCap = some cap → s.accLen + len ≤ cap) →
      ∃ acc : Memory,
        exec (.hUpdate len) s = .next { s with
          acc := acc
          accLen := s.accLen + len
          rsp := s.rsp ++ [⟨.ok, []⟩] } ∧
        (∀ j, acc.read? j =
          if s.accLen ≤ j ∧ j < s.accLen + len then s.cmd.payload[j - s.accLen]? else s.acc.read? j) ∧
        ({ s with acc := acc, accLen := s.accLen + len } : State).accMessage = s.accMessage ++ s.cmd.payload

/-- R240 to R243: H_DIGEST completes whenever the core is keyed and ACC_LEN is within ACC_CAP, as R27 has it: it answers
the digest of KOPAD and the digest of KIPAD and the message; HC, SH, the units' transients and the response change, and
nothing else. With ACC_LEN beyond ACC_CAP, which no run reaches, reading the message would leave ACC, and R62 asks for
a refusal (log 9). -/
def Obligations.HDigestResult : Prop :=
  ∀ s : State, s.cmd.payload = [] → s.keyed = true →
    ((∀ cap, s.params.accCap = some cap → s.accLen ≤ cap) →
      ∃ (hc sh : Context) (md5 : Md5Unit) (sha1 : Sha1Unit),
        exec .hDigest s = .next { s with
          hc := hc
          sh := sh
          md5 := md5
          sha1 := sha1
          rsp := s.rsp ++ [⟨.ok, messageDigest s.halg
            (s.kopad.toList ++ messageDigest s.halg (s.kipad.toList ++ s.accMessage))⟩] }) ∧
    (∀ cap, s.params.accCap = some cap → cap < s.accLen → exec .hDigest s = .refused .accIndexOutOfRange)

/-- R240 to R242: the outer pass of H_DIGEST on a keyed core, with ACC_LEN within ACC_CAP (R27), is exactly two blocks:
KOPAD, then the inner digest (of DL bytes, of KIPAD and the message) with its mark, zeros and the bit count
`8 * (64 + DL)`, 0x280 for MD5 and 0x2A0 for SHA-1; the response is the digest words after them. -/
def Obligations.OuterPassIsTwoBlocks : Prop :=
  ∀ s : State, s.cmd.payload = [] → s.keyed = true → (∀ cap, s.params.accCap = some cap → s.accLen ≤ cap) →
    let inner := messageDigest s.halg (s.kipad.toList ++ s.accMessage)
    let last := match s.halg with
      | .md5 => inner ++ 0x80 :: zeros 39 ++ (le32bytes 0x280 ++ le32bytes 0)
      | .sha1 => inner ++ 0x80 :: zeros 35 ++ (be32bytes 0 ++ be32bytes 0x2A0)
    (inner.length = match s.halg with
      | .md5 => 16
      | .sha1 => 20) ∧
    last.length = 64 ∧
    ∃ t, exec .hDigest s = .next t ∧
      t.rsp = s.rsp ++ [⟨.ok, extract s.halg
        (compress s.halg (compress s.halg (initialWords s.halg) s.kopad.toList) last)⟩]

/-- R39, R246: what the four HMAC commands leave unchanged: every context and CTXV, the parameters and the ports but
RSP; the pads, HALG and KEYED but by H_KEY; every byte of ACC but by H_UPDATE; HC, SH and the units but by H_KEY and
H_DIGEST. -/
def Obligations.HmacCommandsFrame : Prop :=
  ∀ (i : Instr) (s t : State), isDigestCommand i = false → exec i s = .next t →
    t.ctx = s.ctx ∧ t.ctxvWord = s.ctxvWord ∧ t.params = s.params ∧ t.pending = s.pending ∧ t.cmd = s.cmd ∧
      t.stat = s.stat ∧ t.draws = s.draws ∧
      ((∀ alg n, i ≠ .hKey alg n) →
        t.kipad = s.kipad ∧ t.kopad = s.kopad ∧ t.halg = s.halg ∧ t.keyed = s.keyed) ∧
      ((∀ n, i ≠ .hUpdate n) → ∀ j, t.acc.read? j = s.acc.read? j) ∧
      ((∀ alg n, i ≠ .hKey alg n) → i ≠ .hDigest →
        t.hc = s.hc ∧ t.sh = s.sh ∧ t.md5 = s.md5 ∧ t.sha1 = s.sha1)

/-- R230 to R243: the HMAC commands compute HMAC: H_KEY keys the core and empties the message, H_UPDATE appends to it and
H_RESET empties it with the key kept, and H_DIGEST answers the HMAC of the key and the whole message, both kept. -/
def Obligations.HmacCommandsComputeHmac : Prop :=
  ∀ (s t : State) (alg : Alg) (key : ByteString), s.seq = .idle → t.seq = .idle →
    (∀ len, exec (.hKey alg len) s = .next t → t.keyedBy alg s.cmd.payload ∧ t.accMessage = []) ∧
    (s.keyedBy alg key →
      (∀ len, exec (.hUpdate len) s = .next t →
        t.keyedBy alg key ∧ t.accMessage = s.accMessage ++ s.cmd.payload) ∧
      (exec .hReset s = .next t → t.keyedBy alg key ∧ t.accMessage = []) ∧
      (exec .hDigest s = .next t →
        t.keyedBy alg key ∧ t.accMessage = s.accMessage ∧
          t.rsp = s.rsp ++ [⟨.ok, hmac alg key s.accMessage⟩]))

/-! ### Rules of the whole machine -/

/-- R36, R37, R93, R270: a command either takes a fault, number 1 to 8, or leaves SEQ, CAUSE and FINFO as they were and
answers OK; only H_KEY changes KEYED and HALG. -/
def Obligations.StatusChangesOnlyByFaultOrKey : Prop :=
  ∀ (i : Instr) (s t : State), exec i s = .next t →
    (∃ n : BitVec 8, 1 ≤ n.toNat ∧ n.toNat ≤ 8 ∧ t = s.faulted n) ∨
      (t.seq = s.seq ∧ t.cause = s.cause ∧ t.finfo = s.finfo ∧ (∃ r, t.rsp = s.rsp ++ [⟨.ok, r⟩]) ∧
        ((∀ alg n, i ≠ .hKey alg n) → t.keyed = s.keyed ∧ t.halg = s.halg))

/-- R21: a VALID bit falls only by hardware reset, and rises only by D_INIT of that context or D_CLONE into it. -/
def Obligations.ValidChangesOnlyAsStated : Prop :=
  ∀ (s t : State) (k : BitVec 4), step s = .next t →
    ((s.getCtx k).valid = true → (t.getCtx k).valid = false →
      ∃ act rest, s.pending = act :: rest ∧ act.resets = true) ∧
    ((s.getCtx k).valid = false → (t.getCtx k).valid = true →
      ∃ tr rest, s.pending = .command tr :: rest ∧
        ((∃ alg, decode tr.cw = .command (.dInit k alg)) ∨ ∃ src, decode tr.cw = .command (.dClone k src)))

/-- R28, R309: KIPAD and KOPAD change only by H_KEY or hardware reset. -/
def Obligations.KeyMaterialPersists : Prop :=
  ∀ s t : State, step s = .next t → t.kipad ≠ s.kipad ∨ t.kopad ≠ s.kopad →
    (∃ act rest, s.pending = act :: rest ∧ act.resets = true) ∨
      ∃ tr rest alg len, s.pending = .command tr :: rest ∧ decode tr.cw = .command (.hKey alg len)

/-- R40: no step changes NCTX or ACC_CAP. -/
def Obligations.StepKeepsParameters : Prop :=
  ∀ s t : State, step s = .next t → t.params = s.params

/-- R20, R24, R26, R27, R37, R41: the invariant holds at reset. -/
def Obligations.InvAtReset : Prop :=
  State.reset.Inv

/-- R20, R24, R26, R27, R37, R307: every step keeps the invariant, from every state that meets it. -/
def Obligations.StepKeepsInv : Prop :=
  ∀ s t : State, s.Inv → step s = .next t → t.Inv

/-- R62, R307, R315: from every state that meets the invariant a step answers a next state: no command hangs, stops or
accesses a memory out of range, whatever the host does. -/
def Obligations.StepAlwaysCompletes : Prop :=
  ∀ s : State, s.Inv → ∃ t, step s = .next t

/-- R23, R29 to R33, R41, R302: what the spec calls unspecified, dead or scratch is never observed: from two states that
differ in nothing else, a step gives two such states again, with the same responses and the same status reads, or is
refused in both (the refusal, which no run reaches, is the model's, log 9). -/
def Obligations.UnspecifiedStateIsNeverObserved : Prop :=
  ∀ s t : State, s.sameToHost t →
    (∃ s' t', step s = .next s' ∧ step t = .next t' ∧ s'.sameToHost t') ∨
      ∃ r, step s = .refused r ∧ step t = .refused r

/-- R39, R146, R246: the digest contexts and the HMAC core do not learn of each other: a digest command responds and
leaves the contexts the same whatever the HMAC core holds, and an HMAC command responds and leaves the key and the
message the same whatever the contexts hold. -/
def Obligations.ContextsAndHmacAreIndependent : Prop :=
  ∀ (i : Instr) (s t s' : State), exec i s = .next s' → t.params = s.params → t.cmd = s.cmd → t.rsp = s.rsp →
    (isDigestCommand i = true → t.ctx = s.ctx →
      ∃ t', exec i t = .next t' ∧ t'.rsp = s'.rsp ∧ t'.ctx = s'.ctx) ∧
    (isDigestCommand i = false → t.keyed = s.keyed → t.halg = s.halg → t.kipad = s.kipad → t.kopad = s.kopad →
      t.accLen = s.accLen → t.accMessage = s.accMessage →
        ∃ t', exec i t = .next t' ∧ t'.rsp = s'.rsp ∧ t'.keyed = s'.keyed ∧ t'.halg = s'.halg ∧
          t'.kipad = s'.kipad ∧ t'.kopad = s'.kopad ∧ t'.accLen = s'.accLen ∧ t'.accMessage = s'.accMessage)

/-! ### The assembler's pseudo-commands (30_encoding R99, R100) -/

/-- R100 (c): a long payload is cut into consecutive pieces that make it up again, each but the last of 65535 bytes. -/
def Obligations.PayloadPiecesMakeThePayload : Prop :=
  ∀ p : ByteString, (payloadPieces p).flatten = p ∧
    (∀ piece ∈ payloadPieces p, piece.length ≤ 65535) ∧
    ∀ piece ∈ (payloadPieces p).dropLast, piece.length = 65535

/-- R92, R99, R100: what a line of assembler expands to, command by command with its payload: a command itself, one
D_UPDATE or H_UPDATE for each piece of its payload, (a) HASH to D_INIT, D_UPDATE of each piece, D_DIGEST, (b) MAC to
H_KEY, H_UPDATE of each piece, H_DIGEST. Each transaction's word decodes to its command and each payload has the
announced length; only a key of more than 65535 bytes has no expansion. -/
def Obligations.AssembledTransactionsDecode : Prop :=
  ∀ line : AsmLine,
    let commands : List (Instr × ByteString) := match line with
      | .dInit k alg => [(.dInit k alg, [])]
      | .dReset k => [(.dReset k, [])]
      | .dUpdate k p => (payloadPieces p).map fun q => (.dUpdate k q.length, q)
      | .dDigest k => [(.dDigest k, [])]
      | .dClone dst src => [(.dClone dst src, [])]
      | .dLen k => [(.dLen k, [])]
      | .hKey alg key => [(.hKey alg key.length, key)]
      | .hReset => [(.hReset, [])]
      | .hUpdate p => (payloadPieces p).map fun q => (.hUpdate q.length, q)
      | .hDigest => [(.hDigest, [])]
      | .hash k alg p =>
        [(.dInit k alg, [])] ++ (payloadPieces p).map (fun q => (.dUpdate k q.length, q)) ++ [(.dDigest k, [])]
      | .mac alg key p =>
        [(.hKey alg key.length, key)] ++ (payloadPieces p).map (fun q => (.hUpdate q.length, q)) ++ [(.hDigest, [])]
    (∀ ts, line.expand = some ts →
      (ts.map fun tr => (decode tr.cw, tr.payload)) = commands.map fun c => (.command c.1, c.2)) ∧
    (∀ c ∈ commands, c.2.length = announced c.1) ∧
    (line.expand = none ↔
      ∃ alg key, 65535 < key.length ∧ (line = .hKey alg key ∨ ∃ p, line = .mac alg key p))
end

