-- ==== Sys2Proof/Laws/Blocks.lean ====
section
/-! SUPPORT. Cutting byte strings into 64-byte blocks. -/

namespace Sys2Proof.Machine

@[simp] theorem blocksOf_length (n : Nat) (d : ByteString) : (blocksOf n d).length = n := by
  induction n generalizing d with
  | zero => rfl
  | succ n ih => simp [blocksOf, ih]

/-- The first `m + n` blocks are the first `m` blocks and then `n` blocks of the rest. -/
theorem blocksOf_add (m n : Nat) (d : ByteString) :
    blocksOf (m + n) d = blocksOf m d ++ blocksOf n (d.drop (64 * m)) := by
  induction m generalizing d with
  | zero => simp [blocksOf]
  | succ m ih =>
    rw [Nat.add_right_comm, blocksOf, ih, blocksOf, List.drop_drop, List.cons_append]
    congr 4
    omega

/-- The first `n` blocks depend only on the first `64 n` bytes. -/
theorem blocksOf_append (n : Nat) (d e : ByteString) (h : 64 * n ≤ d.length) :
    blocksOf n (d ++ e) = blocksOf n d := by
  induction n generalizing d with
  | zero => rfl
  | succ n ih =>
    rw [blocksOf, blocksOf, List.take_append_of_le_length (by omega), List.drop_append_of_le_length (by omega),
      ih _ (by simp; omega)]

/-- A byte string is its whole blocks and the leftover. -/
theorem leftover_length (d : ByteString) : (leftover d).length = d.length % 64 := by
  simp [leftover]; omega

/-- The whole blocks of a longer message: those of its beginning, then those of what was left over and what follows. -/
theorem wholeBlocks_append (m d : ByteString) :
    wholeBlocks (m ++ d) = wholeBlocks m ++ wholeBlocks (leftover m ++ d) := by
  unfold wholeBlocks
  have hn : (m ++ d).length / 64 = m.length / 64 + (leftover m ++ d).length / 64 := by
    simp [leftover_length]; omega
  rw [hn, blocksOf_add, blocksOf_append _ _ _ (by omega), List.drop_append_of_le_length (by omega)]
  rfl

/-- The leftover of a longer message. -/
theorem leftover_append (m d : ByteString) : leftover (m ++ d) = leftover (leftover m ++ d) := by
  unfold leftover
  rw [← List.drop_append_of_le_length (by omega), List.drop_drop]
  congr 1
  simp
  omega

/-- Fewer than 64 bytes are no whole block. -/
theorem wholeBlocks_short (d : ByteString) (h : d.length < 64) : wholeBlocks d = [] := by
  simp [wholeBlocks, Nat.div_eq_of_lt h, blocksOf]

/-- Fewer than 64 bytes are all left over. -/
theorem leftover_short (d : ByteString) (h : d.length < 64) : leftover d = d := by
  simp [leftover, Nat.div_eq_of_lt h]

/-- A first block and what follows it. -/
theorem wholeBlocks_block (b d : ByteString) (h : b.length = 64) : wholeBlocks (b ++ d) = b :: wholeBlocks d := by
  rw [wholeBlocks_append]
  have h1 : wholeBlocks b = [b] := by simp [wholeBlocks, h, blocksOf, List.take_of_length_le]
  have h2 : leftover b = [] := by simp [leftover, h]
  simp [h1, h2]

/-- The leftover after a first block. -/
theorem leftover_block (b d : ByteString) (h : b.length = 64) : leftover (b ++ d) = leftover d := by
  rw [leftover_append]
  have h2 : leftover b = [] := by simp [leftover, h]
  simp [h2]

@[simp] theorem hashBlocks_nil (alg : Alg) (h : Vector Word 5) : hashBlocks alg h [] = h := rfl

@[simp] theorem hashBlocks_cons (alg : Alg) (h : Vector Word 5) (b : ByteString) (bs : List ByteString) :
    hashBlocks alg h (b :: bs) = hashBlocks alg (compress alg h b) bs := rfl

theorem hashBlocks_append (alg : Alg) (h : Vector Word 5) (bs cs : List ByteString) :
    hashBlocks alg h (bs ++ cs) = hashBlocks alg (hashBlocks alg h bs) cs := List.foldl_append

end Sys2Proof.Machine
end

