-- ==== Sys2Proof/Laws/State.lean ====
section
/-! SUPPORT. The small lemmas of the state: for each operation, what it leaves in each field, and reading a context
after writing one. -/

namespace Sys2Proof.Machine

/-! ### setCtx -/

@[simp] theorem State.setCtx_params (s : State) (k : BitVec 4) (c : Context) : (s.setCtx k c).params = s.params := rfl
@[simp] theorem State.setCtx_pending (s : State) (k : BitVec 4) (c : Context) : (s.setCtx k c).pending = s.pending := rfl
@[simp] theorem State.setCtx_cmd (s : State) (k : BitVec 4) (c : Context) : (s.setCtx k c).cmd = s.cmd := rfl
@[simp] theorem State.setCtx_rsp (s : State) (k : BitVec 4) (c : Context) : (s.setCtx k c).rsp = s.rsp := rfl
@[simp] theorem State.setCtx_stat (s : State) (k : BitVec 4) (c : Context) : (s.setCtx k c).stat = s.stat := rfl
@[simp] theorem State.setCtx_seq (s : State) (k : BitVec 4) (c : Context) : (s.setCtx k c).seq = s.seq := rfl
@[simp] theorem State.setCtx_cause (s : State) (k : BitVec 4) (c : Context) : (s.setCtx k c).cause = s.cause := rfl
@[simp] theorem State.setCtx_finfo (s : State) (k : BitVec 4) (c : Context) : (s.setCtx k c).finfo = s.finfo := rfl
@[simp] theorem State.setCtx_ctx (s : State) (k : BitVec 4) (c : Context) : (s.setCtx k c).ctx = s.ctx.set k.toNat c k.isLt := rfl
@[simp] theorem State.setCtx_hc (s : State) (k : BitVec 4) (c : Context) : (s.setCtx k c).hc = s.hc := rfl
@[simp] theorem State.setCtx_sh (s : State) (k : BitVec 4) (c : Context) : (s.setCtx k c).sh = s.sh := rfl
@[simp] theorem State.setCtx_kipad (s : State) (k : BitVec 4) (c : Context) : (s.setCtx k c).kipad = s.kipad := rfl
@[simp] theorem State.setCtx_kopad (s : State) (k : BitVec 4) (c : Context) : (s.setCtx k c).kopad = s.kopad := rfl
@[simp] theorem State.setCtx_acc (s : State) (k : BitVec 4) (c : Context) : (s.setCtx k c).acc = s.acc := rfl
@[simp] theorem State.setCtx_accLen (s : State) (k : BitVec 4) (c : Context) : (s.setCtx k c).accLen = s.accLen := rfl
@[simp] theorem State.setCtx_keyed (s : State) (k : BitVec 4) (c : Context) : (s.setCtx k c).keyed = s.keyed := rfl
@[simp] theorem State.setCtx_halg (s : State) (k : BitVec 4) (c : Context) : (s.setCtx k c).halg = s.halg := rfl
@[simp] theorem State.setCtx_md5 (s : State) (k : BitVec 4) (c : Context) : (s.setCtx k c).md5 = s.md5 := rfl
@[simp] theorem State.setCtx_sha1 (s : State) (k : BitVec 4) (c : Context) : (s.setCtx k c).sha1 = s.sha1 := rfl
@[simp] theorem State.setCtx_draws (s : State) (k : BitVec 4) (c : Context) : (s.setCtx k c).draws = s.draws := rfl

/-! ### respond -/

@[simp] theorem State.respond_params (s : State) (r : ByteString) : (s.respond r).params = s.params := rfl
@[simp] theorem State.respond_pending (s : State) (r : ByteString) : (s.respond r).pending = s.pending := rfl
@[simp] theorem State.respond_cmd (s : State) (r : ByteString) : (s.respond r).cmd = s.cmd := rfl
@[simp] theorem State.respond_rsp (s : State) (r : ByteString) : (s.respond r).rsp = s.rsp ++ [{ code := .ok, bytes := r }] := rfl
@[simp] theorem State.respond_stat (s : State) (r : ByteString) : (s.respond r).stat = s.stat := rfl
@[simp] theorem State.respond_seq (s : State) (r : ByteString) : (s.respond r).seq = s.seq := rfl
@[simp] theorem State.respond_cause (s : State) (r : ByteString) : (s.respond r).cause = s.cause := rfl
@[simp] theorem State.respond_finfo (s : State) (r : ByteString) : (s.respond r).finfo = s.finfo := rfl
@[simp] theorem State.respond_ctx (s : State) (r : ByteString) : (s.respond r).ctx = s.ctx := rfl
@[simp] theorem State.respond_hc (s : State) (r : ByteString) : (s.respond r).hc = s.hc := rfl
@[simp] theorem State.respond_sh (s : State) (r : ByteString) : (s.respond r).sh = s.sh := rfl
@[simp] theorem State.respond_kipad (s : State) (r : ByteString) : (s.respond r).kipad = s.kipad := rfl
@[simp] theorem State.respond_kopad (s : State) (r : ByteString) : (s.respond r).kopad = s.kopad := rfl
@[simp] theorem State.respond_acc (s : State) (r : ByteString) : (s.respond r).acc = s.acc := rfl
@[simp] theorem State.respond_accLen (s : State) (r : ByteString) : (s.respond r).accLen = s.accLen := rfl
@[simp] theorem State.respond_keyed (s : State) (r : ByteString) : (s.respond r).keyed = s.keyed := rfl
@[simp] theorem State.respond_halg (s : State) (r : ByteString) : (s.respond r).halg = s.halg := rfl
@[simp] theorem State.respond_md5 (s : State) (r : ByteString) : (s.respond r).md5 = s.md5 := rfl
@[simp] theorem State.respond_sha1 (s : State) (r : ByteString) : (s.respond r).sha1 = s.sha1 := rfl
@[simp] theorem State.respond_draws (s : State) (r : ByteString) : (s.respond r).draws = s.draws := rfl

/-! ### respondFault -/

@[simp] theorem State.respondFault_params (s : State) : (s.respondFault).params = s.params := rfl
@[simp] theorem State.respondFault_pending (s : State) : (s.respondFault).pending = s.pending := rfl
@[simp] theorem State.respondFault_cmd (s : State) : (s.respondFault).cmd = s.cmd := rfl
@[simp] theorem State.respondFault_rsp (s : State) : (s.respondFault).rsp = s.rsp ++ [{ code := .fault, bytes := [] }] := rfl
@[simp] theorem State.respondFault_stat (s : State) : (s.respondFault).stat = s.stat := rfl
@[simp] theorem State.respondFault_seq (s : State) : (s.respondFault).seq = s.seq := rfl
@[simp] theorem State.respondFault_cause (s : State) : (s.respondFault).cause = s.cause := rfl
@[simp] theorem State.respondFault_finfo (s : State) : (s.respondFault).finfo = s.finfo := rfl
@[simp] theorem State.respondFault_ctx (s : State) : (s.respondFault).ctx = s.ctx := rfl
@[simp] theorem State.respondFault_hc (s : State) : (s.respondFault).hc = s.hc := rfl
@[simp] theorem State.respondFault_sh (s : State) : (s.respondFault).sh = s.sh := rfl
@[simp] theorem State.respondFault_kipad (s : State) : (s.respondFault).kipad = s.kipad := rfl
@[simp] theorem State.respondFault_kopad (s : State) : (s.respondFault).kopad = s.kopad := rfl
@[simp] theorem State.respondFault_acc (s : State) : (s.respondFault).acc = s.acc := rfl
@[simp] theorem State.respondFault_accLen (s : State) : (s.respondFault).accLen = s.accLen := rfl
@[simp] theorem State.respondFault_keyed (s : State) : (s.respondFault).keyed = s.keyed := rfl
@[simp] theorem State.respondFault_halg (s : State) : (s.respondFault).halg = s.halg := rfl
@[simp] theorem State.respondFault_md5 (s : State) : (s.respondFault).md5 = s.md5 := rfl
@[simp] theorem State.respondFault_sha1 (s : State) : (s.respondFault).sha1 = s.sha1 := rfl
@[simp] theorem State.respondFault_draws (s : State) : (s.respondFault).draws = s.draws := rfl

/-! ### takeFault -/

@[simp] theorem State.takeFault_params (s : State) (code : FaultCode) : (s.takeFault code).params = s.params := rfl
@[simp] theorem State.takeFault_pending (s : State) (code : FaultCode) : (s.takeFault code).pending = s.pending := rfl
@[simp] theorem State.takeFault_cmd (s : State) (code : FaultCode) : (s.takeFault code).cmd = s.cmd := rfl
@[simp] theorem State.takeFault_rsp (s : State) (code : FaultCode) : (s.takeFault code).rsp = s.rsp ++ [{ code := .fault, bytes := [] }] := rfl
@[simp] theorem State.takeFault_stat (s : State) (code : FaultCode) : (s.takeFault code).stat = s.stat := rfl
@[simp] theorem State.takeFault_seq (s : State) (code : FaultCode) : (s.takeFault code).seq = .faulted := rfl
@[simp] theorem State.takeFault_cause (s : State) (code : FaultCode) : (s.takeFault code).cause = code.number := rfl
@[simp] theorem State.takeFault_finfo (s : State) (code : FaultCode) : (s.takeFault code).finfo = s.cmd.cw := rfl
@[simp] theorem State.takeFault_ctx (s : State) (code : FaultCode) : (s.takeFault code).ctx = s.ctx := rfl
@[simp] theorem State.takeFault_hc (s : State) (code : FaultCode) : (s.takeFault code).hc = s.hc := rfl
@[simp] theorem State.takeFault_sh (s : State) (code : FaultCode) : (s.takeFault code).sh = s.sh := rfl
@[simp] theorem State.takeFault_kipad (s : State) (code : FaultCode) : (s.takeFault code).kipad = s.kipad := rfl
@[simp] theorem State.takeFault_kopad (s : State) (code : FaultCode) : (s.takeFault code).kopad = s.kopad := rfl
@[simp] theorem State.takeFault_acc (s : State) (code : FaultCode) : (s.takeFault code).acc = s.acc := rfl
@[simp] theorem State.takeFault_accLen (s : State) (code : FaultCode) : (s.takeFault code).accLen = s.accLen := rfl
@[simp] theorem State.takeFault_keyed (s : State) (code : FaultCode) : (s.takeFault code).keyed = s.keyed := rfl
@[simp] theorem State.takeFault_halg (s : State) (code : FaultCode) : (s.takeFault code).halg = s.halg := rfl
@[simp] theorem State.takeFault_md5 (s : State) (code : FaultCode) : (s.takeFault code).md5 = s.md5 := rfl
@[simp] theorem State.takeFault_sha1 (s : State) (code : FaultCode) : (s.takeFault code).sha1 = s.sha1 := rfl
@[simp] theorem State.takeFault_draws (s : State) (code : FaultCode) : (s.takeFault code).draws = s.draws := rfl

/-! ### withUnits -/

@[simp] theorem State.withUnits_params (s : State) (e : Engine) : (s.withUnits e).params = s.params := rfl
@[simp] theorem State.withUnits_pending (s : State) (e : Engine) : (s.withUnits e).pending = s.pending := rfl
@[simp] theorem State.withUnits_cmd (s : State) (e : Engine) : (s.withUnits e).cmd = s.cmd := rfl
@[simp] theorem State.withUnits_rsp (s : State) (e : Engine) : (s.withUnits e).rsp = s.rsp := rfl
@[simp] theorem State.withUnits_stat (s : State) (e : Engine) : (s.withUnits e).stat = s.stat := rfl
@[simp] theorem State.withUnits_seq (s : State) (e : Engine) : (s.withUnits e).seq = s.seq := rfl
@[simp] theorem State.withUnits_cause (s : State) (e : Engine) : (s.withUnits e).cause = s.cause := rfl
@[simp] theorem State.withUnits_finfo (s : State) (e : Engine) : (s.withUnits e).finfo = s.finfo := rfl
@[simp] theorem State.withUnits_ctx (s : State) (e : Engine) : (s.withUnits e).ctx = s.ctx := rfl
@[simp] theorem State.withUnits_hc (s : State) (e : Engine) : (s.withUnits e).hc = s.hc := rfl
@[simp] theorem State.withUnits_sh (s : State) (e : Engine) : (s.withUnits e).sh = s.sh := rfl
@[simp] theorem State.withUnits_kipad (s : State) (e : Engine) : (s.withUnits e).kipad = s.kipad := rfl
@[simp] theorem State.withUnits_kopad (s : State) (e : Engine) : (s.withUnits e).kopad = s.kopad := rfl
@[simp] theorem State.withUnits_acc (s : State) (e : Engine) : (s.withUnits e).acc = s.acc := rfl
@[simp] theorem State.withUnits_accLen (s : State) (e : Engine) : (s.withUnits e).accLen = s.accLen := rfl
@[simp] theorem State.withUnits_keyed (s : State) (e : Engine) : (s.withUnits e).keyed = s.keyed := rfl
@[simp] theorem State.withUnits_halg (s : State) (e : Engine) : (s.withUnits e).halg = s.halg := rfl
@[simp] theorem State.withUnits_md5 (s : State) (e : Engine) : (s.withUnits e).md5 = e.md5 := rfl
@[simp] theorem State.withUnits_sha1 (s : State) (e : Engine) : (s.withUnits e).sha1 = e.sha1 := rfl
@[simp] theorem State.withUnits_draws (s : State) (e : Engine) : (s.withUnits e).draws = s.draws := rfl

/-! ### appendAcc -/

@[simp] theorem State.appendAcc_params (s : State) (p : ByteString) : (s.appendAcc p).params = s.params := rfl
@[simp] theorem State.appendAcc_pending (s : State) (p : ByteString) : (s.appendAcc p).pending = s.pending := rfl
@[simp] theorem State.appendAcc_cmd (s : State) (p : ByteString) : (s.appendAcc p).cmd = s.cmd := rfl
@[simp] theorem State.appendAcc_rsp (s : State) (p : ByteString) : (s.appendAcc p).rsp = s.rsp := rfl
@[simp] theorem State.appendAcc_stat (s : State) (p : ByteString) : (s.appendAcc p).stat = s.stat := rfl
@[simp] theorem State.appendAcc_seq (s : State) (p : ByteString) : (s.appendAcc p).seq = s.seq := rfl
@[simp] theorem State.appendAcc_cause (s : State) (p : ByteString) : (s.appendAcc p).cause = s.cause := rfl
@[simp] theorem State.appendAcc_finfo (s : State) (p : ByteString) : (s.appendAcc p).finfo = s.finfo := rfl
@[simp] theorem State.appendAcc_ctx (s : State) (p : ByteString) : (s.appendAcc p).ctx = s.ctx := rfl
@[simp] theorem State.appendAcc_hc (s : State) (p : ByteString) : (s.appendAcc p).hc = s.hc := rfl
@[simp] theorem State.appendAcc_sh (s : State) (p : ByteString) : (s.appendAcc p).sh = s.sh := rfl
@[simp] theorem State.appendAcc_kipad (s : State) (p : ByteString) : (s.appendAcc p).kipad = s.kipad := rfl
@[simp] theorem State.appendAcc_kopad (s : State) (p : ByteString) : (s.appendAcc p).kopad = s.kopad := rfl
@[simp] theorem State.appendAcc_acc (s : State) (p : ByteString) : (s.appendAcc p).acc = s.acc.writeBytes s.accLen p := rfl
@[simp] theorem State.appendAcc_accLen (s : State) (p : ByteString) : (s.appendAcc p).accLen = s.accLen + p.length := rfl
@[simp] theorem State.appendAcc_keyed (s : State) (p : ByteString) : (s.appendAcc p).keyed = s.keyed := rfl
@[simp] theorem State.appendAcc_halg (s : State) (p : ByteString) : (s.appendAcc p).halg = s.halg := rfl
@[simp] theorem State.appendAcc_md5 (s : State) (p : ByteString) : (s.appendAcc p).md5 = s.md5 := rfl
@[simp] theorem State.appendAcc_sha1 (s : State) (p : ByteString) : (s.appendAcc p).sha1 = s.sha1 := rfl
@[simp] theorem State.appendAcc_draws (s : State) (p : ByteString) : (s.appendAcc p).draws = s.draws := rfl

/-! ### readStatus -/

@[simp] theorem State.readStatus_params (s : State) (n : Nat) : (s.readStatus n).params = s.params := rfl
@[simp] theorem State.readStatus_pending (s : State) (n : Nat) : (s.readStatus n).pending = s.pending := rfl
@[simp] theorem State.readStatus_cmd (s : State) (n : Nat) : (s.readStatus n).cmd = s.cmd := rfl
@[simp] theorem State.readStatus_rsp (s : State) (n : Nat) : (s.readStatus n).rsp = s.rsp := rfl
@[simp] theorem State.readStatus_stat (s : State) (n : Nat) : (s.readStatus n).stat = s.stat ++ [s.statRead n] := rfl
@[simp] theorem State.readStatus_seq (s : State) (n : Nat) : (s.readStatus n).seq = s.seq := rfl
@[simp] theorem State.readStatus_cause (s : State) (n : Nat) : (s.readStatus n).cause = s.cause := rfl
@[simp] theorem State.readStatus_finfo (s : State) (n : Nat) : (s.readStatus n).finfo = s.finfo := rfl
@[simp] theorem State.readStatus_ctx (s : State) (n : Nat) : (s.readStatus n).ctx = s.ctx := rfl
@[simp] theorem State.readStatus_hc (s : State) (n : Nat) : (s.readStatus n).hc = s.hc := rfl
@[simp] theorem State.readStatus_sh (s : State) (n : Nat) : (s.readStatus n).sh = s.sh := rfl
@[simp] theorem State.readStatus_kipad (s : State) (n : Nat) : (s.readStatus n).kipad = s.kipad := rfl
@[simp] theorem State.readStatus_kopad (s : State) (n : Nat) : (s.readStatus n).kopad = s.kopad := rfl
@[simp] theorem State.readStatus_acc (s : State) (n : Nat) : (s.readStatus n).acc = s.acc := rfl
@[simp] theorem State.readStatus_accLen (s : State) (n : Nat) : (s.readStatus n).accLen = s.accLen := rfl
@[simp] theorem State.readStatus_keyed (s : State) (n : Nat) : (s.readStatus n).keyed = s.keyed := rfl
@[simp] theorem State.readStatus_halg (s : State) (n : Nat) : (s.readStatus n).halg = s.halg := rfl
@[simp] theorem State.readStatus_md5 (s : State) (n : Nat) : (s.readStatus n).md5 = s.md5 := rfl
@[simp] theorem State.readStatus_sha1 (s : State) (n : Nat) : (s.readStatus n).sha1 = s.sha1 := rfl
@[simp] theorem State.readStatus_draws (s : State) (n : Nat) : (s.readStatus n).draws = s.draws := rfl

/-! ### hardwareReset -/

@[simp] theorem State.hardwareReset_params (s : State) : (s.hardwareReset).params = s.params := rfl
@[simp] theorem State.hardwareReset_pending (s : State) : (s.hardwareReset).pending = s.pending := rfl
@[simp] theorem State.hardwareReset_rsp (s : State) : (s.hardwareReset).rsp = s.rsp := rfl
@[simp] theorem State.hardwareReset_stat (s : State) : (s.hardwareReset).stat = s.stat := rfl
@[simp] theorem State.hardwareReset_seq (s : State) : (s.hardwareReset).seq = .idle := rfl
@[simp] theorem State.hardwareReset_cause (s : State) : (s.hardwareReset).cause = 0 := rfl
@[simp] theorem State.hardwareReset_finfo (s : State) : (s.hardwareReset).finfo = 0 := rfl
@[simp] theorem State.hardwareReset_ctx (s : State) : (s.hardwareReset).ctx = Vector.ofFn fun k => Context.afterReset (s.draws + 1) k.val := rfl
@[simp] theorem State.hardwareReset_acc (s : State) : (s.hardwareReset).acc = [] := rfl
@[simp] theorem State.hardwareReset_accLen (s : State) : (s.hardwareReset).accLen = 0 := rfl
@[simp] theorem State.hardwareReset_keyed (s : State) : (s.hardwareReset).keyed = false := rfl
@[simp] theorem State.hardwareReset_draws (s : State) : (s.hardwareReset).draws = s.draws + 1 := rfl

/-! ### Contexts -/

/-- Reading the context just written. -/
@[simp] theorem State.getCtx_setCtx_same (s : State) (k : BitVec 4) (c : Context) : (s.setCtx k c).getCtx k = c := by
  simp [State.getCtx, State.setCtx]

/-- Reading another context than the one written. -/
theorem State.getCtx_setCtx_other (s : State) (k j : BitVec 4) (c : Context) (h : j ≠ k) :
    (s.setCtx k c).getCtx j = s.getCtx j := by
  have hn : k.toNat ≠ j.toNat := fun e => h (BitVec.eq_of_toNat_eq e.symm)
  simp [State.getCtx, State.setCtx, Vector.getElem_set_ne, hn]

@[simp] theorem State.getCtx_respond (s : State) (r : ByteString) (k : BitVec 4) : (s.respond r).getCtx k = s.getCtx k := rfl
@[simp] theorem State.getCtx_respondFault (s : State) (k : BitVec 4) : (s.respondFault).getCtx k = s.getCtx k := rfl
@[simp] theorem State.getCtx_takeFault (s : State) (code : FaultCode) (k : BitVec 4) : (s.takeFault code).getCtx k = s.getCtx k := rfl
@[simp] theorem State.getCtx_withUnits (s : State) (e : Engine) (k : BitVec 4) : (s.withUnits e).getCtx k = s.getCtx k := rfl
@[simp] theorem State.getCtx_appendAcc (s : State) (p : ByteString) (k : BitVec 4) : (s.appendAcc p).getCtx k = s.getCtx k := rfl
@[simp] theorem State.getCtx_readStatus (s : State) (n : Nat) (k : BitVec 4) : (s.readStatus n).getCtx k = s.getCtx k := rfl

/-- A fault entry is R270 written out. -/
theorem State.takeFault_eq (s : State) (code : FaultCode) :
    s.takeFault code =
      { s with
        seq := .faulted
        cause := code.number
        finfo := s.cmd.cw
        rsp := s.rsp ++ [{ code := .fault, bytes := [] }] } := rfl

/-- The number of every fault code is 1 to 8 (R261). -/
theorem FaultCode.number_range (code : FaultCode) : 1 ≤ code.number.toNat ∧ code.number.toNat ≤ 8 := by
  cases code <;> decide

/-- Different fault codes have different numbers (R261). -/
theorem FaultCode.number_injective (a b : FaultCode) (h : a.number = b.number) : a = b := by
  cases a <;> cases b <;> first | rfl | (revert h; decide)

end Sys2Proof.Machine
end

