-- ==== Sys2Proof/Laws/Checks.lean ====
section
/-! SUPPORT. What the fault checks of a command can do (60_exceptions R271). -/

namespace Sys2Proof.Machine

/-- With no check left the operation happens. -/
@[simp] theorem State.withChecks_nil (s : State) (operation : Host.Outcome State Fault Refusal) :
    s.withChecks [] operation = operation := rfl

/-- The first check decides, and the later ones are made only when it passes. -/
@[simp] theorem State.withChecks_cons (s : State) (failed : Bool) (code : FaultCode)
    (checks : List (Bool × FaultCode)) (operation : Host.Outcome State Fault Refusal) :
    s.withChecks ((failed, code) :: checks) operation =
      if failed = true then .next (s.takeFault code) else s.withChecks checks operation := by
  cases failed <;> rfl

/-- If a checked command answers a next state, either one of its checks failed and its fault was taken, or every check
passed and the operation answered that state. -/
theorem State.withChecks_next (s t : State) (checks : List (Bool × FaultCode))
    (operation : Host.Outcome State Fault Refusal) (h : s.withChecks checks operation = .next t) :
    (∃ code, (true, code) ∈ checks ∧ t = s.takeFault code) ∨
      ((∀ check ∈ checks, check.1 = false) ∧ operation = .next t) := by
  induction checks with
  | nil => exact .inr ⟨by simp, h⟩
  | cons check checks ih =>
    obtain ⟨failed, code⟩ := check
    cases failed with
    | true =>
      simp only [State.withChecks_cons, if_true, Host.Outcome.next.injEq] at h
      exact .inl ⟨code, by simp, h.symm⟩
    | false =>
      simp only [State.withChecks_cons, Bool.false_eq_true, if_false] at h
      rcases ih h with ⟨c, hc, ht⟩ | ⟨hall, hop⟩
      · exact .inl ⟨c, List.mem_cons_of_mem _ hc, ht⟩
      · exact .inr ⟨by simpa using hall, hop⟩

/-- A context in range lets the operation happen. -/
@[simp] theorem Context.indexed_of_lt (c : Context) (operation : Host.Outcome State Fault Refusal)
    (h : c.fi.toNat < 64) : c.indexed operation = operation := by
  simp [Context.indexed, h]

/-- If an access to BUF answers a next state, the fill index was in range. -/
theorem Context.indexed_next (c : Context) (operation : Host.Outcome State Fault Refusal) (t : State)
    (h : c.indexed operation = .next t) : c.fi.toNat < 64 ∧ operation = .next t := by
  unfold Context.indexed at h
  split at h
  · exact ⟨‹_›, h⟩
  · cases h

/-- A context out of range is refused. -/
@[simp] theorem Context.indexed_of_ge (c : Context) (operation : Host.Outcome State Fault Refusal)
    (h : 64 ≤ c.fi.toNat) : c.indexed operation = .refused .bufIndexOutOfRange := by
  simp [Context.indexed, Nat.not_lt.mpr h]

/-- There is room for `len` more bytes exactly when ACC_CAP, if there is one, is not exceeded. -/
@[simp] theorem State.accFull_eq_false (s : State) (len : Nat) :
    s.accFull len = false ↔ ∀ cap, s.params.accCap = some cap → s.accLen + len ≤ cap := by
  cases h : s.params.accCap <;> simp [State.accFull, h]

/-- An accumulator in range lets the operation happen. -/
theorem State.accIndexed_of_le (s : State) (operation : Host.Outcome State Fault Refusal)
    (h : ∀ cap, s.params.accCap = some cap → s.accLen ≤ cap) : s.accIndexed operation = operation := by
  have hfull : s.accFull 0 = false := (s.accFull_eq_false 0).mpr h
  simp [State.accIndexed, hfull]

/-- An accumulator out of range is refused. -/
theorem State.accIndexed_of_gt (s : State) (operation : Host.Outcome State Fault Refusal) (cap : Nat)
    (hcap : s.params.accCap = some cap) (h : cap < s.accLen) :
    s.accIndexed operation = .refused .accIndexOutOfRange := by
  simp [State.accIndexed, State.accFull, hcap, h]

/-- If a read of ACC answers a next state, the accumulator was in range. -/
theorem State.accIndexed_next (s : State) (operation : Host.Outcome State Fault Refusal) (t : State)
    (h : s.accIndexed operation = .next t) :
    (∀ cap, s.params.accCap = some cap → s.accLen ≤ cap) ∧ operation = .next t := by
  unfold State.accIndexed at h
  split at h
  · cases h
  · exact ⟨(s.accFull_eq_false 0).mp (Bool.eq_false_iff.mpr ‹_›), h⟩

end Sys2Proof.Machine
end

