-- ==== Sys2Proof/Laws/Encoding.lean ====
section
/-! SUPPORT. The command word's fields can be taken apart and put together (30_encoding R91, R94). -/

namespace Sys2Proof

/-- The fields of a word built from fields are those fields. -/
@[simp] theorem fieldsOf_wordOf (f : Fields) : fieldsOf (wordOf f) = f := by
  obtain ⟨len, mbz, alg, ctx2, ctx, opc⟩ := f
  simp only [fieldsOf, wordOf, Fields.mk.injEq]
  refine ⟨?_, ?_, ?_, ?_, ?_, ?_⟩ <;>
    (apply BitVec.eq_of_getLsbD_eq; intro i hi; simp; grind)

/-- A word is the word of its fields. -/
@[simp] theorem wordOf_fieldsOf (w : Word) : wordOf (fieldsOf w) = w := by
  simp only [fieldsOf, wordOf]
  apply BitVec.eq_of_getLsbD_eq
  intro i hi
  simp
  grind

/-- Two words are equal exactly when their fields are. -/
theorem fieldsOf_inj (v w : Word) : fieldsOf v = fieldsOf w ↔ v = w :=
  ⟨fun h => by rw [← wordOf_fieldsOf v, h, wordOf_fieldsOf], fun h => by rw [h]⟩

/-- The fields of a masked word are the masked fields. -/
theorem fieldsOf_and (v w : Word) :
    fieldsOf (v &&& w) =
      { len := (fieldsOf v).len &&& (fieldsOf w).len
        mbz := (fieldsOf v).mbz &&& (fieldsOf w).mbz
        alg := (fieldsOf v).alg &&& (fieldsOf w).alg
        ctx2 := (fieldsOf v).ctx2 &&& (fieldsOf w).ctx2
        ctx := (fieldsOf v).ctx &&& (fieldsOf w).ctx
        opc := (fieldsOf v).opc &&& (fieldsOf w).opc } := by
  simp [fieldsOf, BitVec.extractLsb'_and]

/-- R95: a word meets a match value under a mask exactly when each of its fields does. -/
theorem and_eq_iff_fields (w mask value : Word) :
    w &&& mask = value ↔
      (fieldsOf w).len &&& (fieldsOf mask).len = (fieldsOf value).len ∧
        (fieldsOf w).mbz &&& (fieldsOf mask).mbz = (fieldsOf value).mbz ∧
        (fieldsOf w).alg &&& (fieldsOf mask).alg = (fieldsOf value).alg ∧
        (fieldsOf w).ctx2 &&& (fieldsOf mask).ctx2 = (fieldsOf value).ctx2 ∧
        (fieldsOf w).ctx &&& (fieldsOf mask).ctx = (fieldsOf value).ctx ∧
        (fieldsOf w).opc &&& (fieldsOf mask).opc = (fieldsOf value).opc := by
  rw [← fieldsOf_inj, fieldsOf_and, Fields.ext_iff]

/-- The fields of a row's mask: all ones in OPC and in the fields the command does not use, zeros in its operands. -/
def maskFields : Instr → Fields
  | .dInit _ _ => ⟨0xFFFF, 7, 0, 0xF, 0, 0xF⟩
  | .dReset _ => ⟨0xFFFF, 7, 1, 0xF, 0, 0xF⟩
  | .dUpdate _ _ => ⟨0, 7, 1, 0xF, 0, 0xF⟩
  | .dDigest _ => ⟨0xFFFF, 7, 1, 0xF, 0, 0xF⟩
  | .dClone _ _ => ⟨0xFFFF, 7, 1, 0, 0, 0xF⟩
  | .dLen _ => ⟨0xFFFF, 7, 1, 0xF, 0, 0xF⟩
  | .hKey _ _ => ⟨0, 7, 0, 0xF, 0xF, 0xF⟩
  | .hReset => ⟨0xFFFF, 7, 1, 0xF, 0xF, 0xF⟩
  | .hUpdate _ => ⟨0, 7, 1, 0xF, 0xF, 0xF⟩
  | .hDigest => ⟨0xFFFF, 7, 1, 0xF, 0xF, 0xF⟩

theorem fieldsOf_rowMask (i : Instr) : fieldsOf (rowMask i) = maskFields i := by
  cases i <;> simp only [rowMask, maskFields] <;> decide

theorem fieldsOf_rowMatch (i : Instr) : fieldsOf (rowMatch i) = ⟨0, 0, 0, 0, 0, (fieldsOfInstr i).opc⟩ := by
  cases i <;> simp only [rowMatch, fieldsOfInstr] <;> decide

@[simp] theorem algOfBit_algBit (a : Alg) : algOfBit (algBit a) = a := by cases a <;> rfl

@[simp] theorem algBit_algOfBit (b : BitVec 1) : algBit (algOfBit b) = b := by
  revert b; decide

end Sys2Proof
end

