-- ==== Sys2Proof/Laws/Memory.lean ====
section
/-! SUPPORT. The laws of the byte memories: read after write, the frame of a write, and that every operation on ACC
keeps the canonical form. -/

namespace Sys2Proof.Machine

/-! ### ACC: a list of cells -/

/-- The byte just written is read, and no other byte changes. -/
theorem Memory.read?_write (m : Memory) (i j : Nat) (b : Byte) :
    (m.write i b).read? j = if j = i then some b else m.read? j := by
  induction m with
  | nil => simp [Memory.write, Memory.read?, List.lookup]; split <;> simp_all
  | cons c m ih =>
    obtain ⟨k, v⟩ := c
    simp only [Memory.read?] at ih
    simp only [Memory.write, Memory.read?]
    split_ifs with h1 h2 h3 h3 <;> simp_all [List.lookup_cons] <;> grind

/-- The first index of a memory, if it lists one, is above `n`. -/
def Memory.above (n : Nat) (m : Memory) : Bool :=
  match m with
  | [] => true
  | c :: _ => decide (n < c.1)

/-- The canonical form, cell by cell. -/
theorem Memory.wf_cons (c : Host.Cell) (m : Memory) :
    Memory.wf (c :: m) = (Memory.above c.1 m && Memory.wf m) := by
  cases m <;> simp [Memory.wf, Memory.above]

/-- The memory of the state after reset is in canonical form. -/
theorem State.reset_acc_wf : State.reset.acc.wf = true := rfl

/-- A write keeps the canonical form. -/
theorem Memory.wf_write (m : Memory) (i : Nat) (b : Byte) (h : m.wf = true) : (m.write i b).wf = true := by
  induction m with
  | nil => rfl
  | cons c m ih =>
    rw [Memory.wf_cons, Bool.and_eq_true] at h
    simp only [Memory.write]
    split_ifs with h1 h2
    · rw [Memory.wf_cons, Memory.wf_cons, h.1, h.2]; simp [Memory.above, h1]
    · subst h2; simpa [Memory.wf_cons] using h
    · rw [Memory.wf_cons, ih h.2, Bool.and_true]
      have ha := h.1
      cases m with
      | nil => simp [Memory.write, Memory.above]; omega
      | cons d m =>
        simp only [Memory.above, decide_eq_true_eq, Memory.write] at ha ⊢
        split_ifs <;> simp only [decide_eq_true_eq] <;> omega

/-- `MemWrite` keeps the canonical form. -/
theorem Memory.wf_writeBytes (m : Memory) (i : Nat) (p : ByteString) (h : m.wf = true) :
    (m.writeBytes i p).wf = true := by
  induction p generalizing m i with
  | nil => exact h
  | cons b p ih => exact ih _ _ (Memory.wf_write m i b h)

/-- `MemWrite` stores `p` at `i` and leaves every other byte. -/
theorem Memory.read?_writeBytes (m : Memory) (i j : Nat) (p : ByteString) :
    (m.writeBytes i p).read? j =
      if i ≤ j ∧ j < i + p.length then p[j - i]? else m.read? j := by
  induction p generalizing m i with
  | nil => rw [Memory.writeBytes, if_neg (by simp)]
  | cons b p ih =>
    rw [Memory.writeBytes, ih, Memory.read?_write]
    simp only [List.length_cons]
    by_cases h : j = i
    · subst h; simp
    · split_ifs with h1 h2 h2
      · have : j - i = (j - (i + 1)) + 1 := by omega
        rw [this]; simp
      · omega
      · omega
      · rfl

/-! ### BUF, KIPAD, KOPAD: 64 bytes -/

/-- `MemWrite` on a 64-byte memory, as a list: `s` stands at `j`, everything else is as before. -/
theorem memWrite_toList (mem : Vector Byte 64) (j : Nat) (s : ByteString) (h : j + s.length ≤ 64) :
    (memWrite mem j s).toList = mem.toList.take j ++ s ++ mem.toList.drop (j + s.length) := by
  induction s generalizing mem j with
  | nil => simp [memWrite]
  | cons b s ih =>
    simp only [List.length_cons] at h
    rw [memWrite, ih _ _ (by omega)]
    have hl : mem.toList.length = 64 := by simp
    apply List.ext_getElem?
    intro n
    simp [Vector.toList_setIfInBounds, List.getElem?_append, List.getElem?_take, List.getElem?_set]
    grind

/-- One byte of a 64-byte memory after `MemWrite`. -/
theorem memWrite_getElem (mem : Vector Byte 64) (j n : Nat) (s : ByteString) (hn : n < 64) :
    (memWrite mem j s)[n] = if h : j ≤ n ∧ n < j + s.length then s[n - j] else mem[n] := by
  induction s generalizing mem j with
  | nil => rw [memWrite, dif_neg (by simp)]
  | cons b s ih =>
    rw [memWrite, ih]
    simp only [List.length_cons]
    grind

/-- `MemRead` of a whole 64-byte memory. -/
@[simp] theorem memRead_all (mem : Vector Byte 64) : memRead mem 0 64 = mem.toList := by
  simp [memRead]

/-- The number of bytes `MemRead` returns. -/
theorem memRead_length (mem : Vector Byte 64) (j n : Nat) (h : j + n ≤ 64) : (memRead mem j n).length = n := by
  simp [memRead]; omega

@[simp] theorem zeros_length (n : Nat) : (zeros n).length = n := by simp [zeros]

end Sys2Proof.Machine
end

