-- ==== Sys2Proof/Laws/Engine.lean ====
section
/-! SUPPORT. What each engine procedure does (40_hash_engine R121 to R133), said once: the specs the command lemmas
cite instead of unfolding the procedures. -/

namespace Sys2Proof.Machine

/-! ### Init and the counter -/

/-- `Init` leaves the just-constructed state: the empty message. -/
theorem Context.init_holds (c : Context) (alg : Alg) : (c.init alg).holds alg [] := by
  simp [Context.holds, Context.init, Context.counter, Context.live, memRead, leftover, wholeBlocks, blocksOf]

theorem Context.counter_lt (c : Context) : c.counter < 2 ^ 64 := by
  have h1 := c.bcHi.isLt
  have h2 := c.bcLo.isLt
  simp only [Context.counter]
  omega

/-- The counter determines its two halves. -/
theorem Context.counter_inj (c d : Context) (h : c.counter = d.counter) : c.bcLo = d.bcLo ∧ c.bcHi = d.bcHi := by
  have h1 := c.bcLo.isLt
  have h2 := d.bcLo.isLt
  unfold Context.counter at h
  exact ⟨BitVec.eq_of_toNat_eq (by omega), BitVec.eq_of_toNat_eq (by omega)⟩

/-- `IncBC` adds one to the 64-bit counter. -/
theorem Context.counter_incBc (c : Context) : c.incBc.counter = (c.counter + 1) % 2 ^ 64 := by
  have h1 := c.bcHi.isLt
  have h2 := c.bcLo.isLt
  simp only [Context.incBc, Context.counter]
  by_cases hz : c.bcLo + 1 = 0
  · have hlo : (c.bcLo + 1).toNat = 0 := by rw [hz]; rfl
    rw [BitVec.toNat_add] at hlo
    simp only [hz, if_true, BitVec.toNat_add]
    simp at hlo ⊢
    omega
  · have hlo : (c.bcLo + 1).toNat ≠ 0 := fun e => hz (BitVec.eq_of_toNat_eq e)
    rw [BitVec.toNat_add] at hlo
    simp only [hz, if_false, BitVec.toNat_add]
    simp at hlo ⊢
    omega

/-! ### Transform -/

/-- R124: `Transform` writes the working words of the context and nothing else of it. -/
theorem Engine.transform_c (e : Engine) (block : ByteString) :
    (e.transform block).c = { e.c with h := compress e.c.alg e.c.h block } := by
  unfold Engine.transform compress md5Transform sha1Transform
  cases e.c.alg <;> rfl

/-- The SHA-1 unit is not touched for an MD5 context. -/
theorem Engine.transform_sha1 (e : Engine) (block : ByteString) (h : e.c.alg = .md5) :
    (e.transform block).sha1 = e.sha1 := by
  simp [Engine.transform, h]

/-- The MD5 unit is not touched for a SHA-1 context. -/
theorem Engine.transform_md5 (e : Engine) (block : ByteString) (h : e.c.alg = .sha1) :
    (e.transform block).md5 = e.md5 := by
  simp [Engine.transform, h]

/-- Both algorithms keep `H[4]` of an MD5 context (10_state R26). -/
theorem compress_md5_h4 (h : Vector Word 5) (block : ByteString) : (compress .md5 h block)[4] = h[4] := rfl

theorem hashBlocks_md5_h4 (h : Vector Word 5) (bs : List ByteString) : (hashBlocks .md5 h bs)[4] = h[4] := by
  induction bs generalizing h with
  | nil => rfl
  | cons b bs ih => rw [hashBlocks_cons, ih, compress_md5_h4]

/-! ### What an engine keeps: everything of a context but the message position -/

/-- Two engines agree on the unit that algorithm `alg` does not run. -/
def Engine.sameOtherUnit (alg : Alg) (e f : Engine) : Prop :=
  match alg with
  | .md5 => f.sha1 = e.sha1
  | .sha1 => f.md5 = e.md5

theorem Engine.transform_other (e : Engine) (block : ByteString) :
    Engine.sameOtherUnit e.c.alg e (e.transform block) := by
  cases h : e.c.alg
  · exact Engine.transform_sha1 e block h
  · exact Engine.transform_md5 e block h

/-- R123: absorbing a block. -/
theorem Engine.absorb_spec (e : Engine) (block : ByteString) :
    (e.absorb block).c.valid = e.c.valid ∧ (e.absorb block).c.alg = e.c.alg ∧
      (e.absorb block).c.buf = e.c.buf ∧ (e.absorb block).c.fi = e.c.fi ∧
      (e.absorb block).c.counter = (e.c.counter + 1) % 2 ^ 64 ∧
      (e.absorb block).c.h = compress e.c.alg e.c.h block ∧
      Engine.sameOtherUnit e.c.alg e (e.absorb block) := by
  have hc := e.transform_c block
  refine ⟨?_, ?_, ?_, ?_, ?_, ?_, ?_⟩
  · simp [Engine.absorb, Context.incBc, hc]
  · simp [Engine.absorb, Context.incBc, hc]
  · simp [Engine.absorb, Context.incBc, hc]
  · simp [Engine.absorb, Context.incBc, hc]
  · simp only [Engine.absorb, Context.counter_incBc, hc]; rfl
  · simp [Engine.absorb, Context.incBc, hc]
  · exact e.transform_other block

/-- R123, U_BLOCKS: `n` whole blocks, consumed directly. -/
theorem Engine.directBlocks_spec (n : Nat) (e : Engine) (d : ByteString) :
    (Engine.directBlocks n e d).2 = d.drop (64 * n) ∧
      (Engine.directBlocks n e d).1.c.valid = e.c.valid ∧
      (Engine.directBlocks n e d).1.c.alg = e.c.alg ∧
      (Engine.directBlocks n e d).1.c.buf = e.c.buf ∧
      (Engine.directBlocks n e d).1.c.fi = e.c.fi ∧
      (Engine.directBlocks n e d).1.c.counter = (e.c.counter + n) % 2 ^ 64 ∧
      (Engine.directBlocks n e d).1.c.h = hashBlocks e.c.alg e.c.h (blocksOf n d) ∧
      Engine.sameOtherUnit e.c.alg e (Engine.directBlocks n e d).1 := by
  induction n generalizing e d with
  | zero =>
    have := e.c.counter_lt
    refine ⟨by simp [Engine.directBlocks], rfl, rfl, rfl, rfl, ?_, rfl, ?_⟩
    · simp only [Engine.directBlocks]; omega
    · cases h : e.c.alg <;> simp [Engine.sameOtherUnit, Engine.directBlocks]
  | succ n ih =>
    obtain ⟨h1, h2, h3, h4, h5, h6, h7⟩ := e.absorb_spec (d.take 64)
    obtain ⟨g0, g1, g2, g3, g4, g5, g6, g7⟩ := ih (e.absorb (d.take 64)) (d.drop 64)
    simp only [Engine.directBlocks]
    refine ⟨?_, g1.trans h1, g2.trans h2, g3.trans h3, g4.trans h4, ?_, ?_, ?_⟩
    · rw [g0, List.drop_drop]; congr 1; omega
    · rw [g5, h5]; omega
    · rw [g6, h2, h6, blocksOf, hashBlocks_cons]
    · rw [h2] at g7
      cases ha : e.c.alg <;> simp only [ha, Engine.sameOtherUnit] at h7 g7 ⊢ <;> exact g7.trans h7

/-- R123, U_TOPUP: either the pending block stays partial and all of `d` is in it, or it is completed, or there was
none. In each case the live bytes and the data left over are the old live bytes and all of `d`. -/
theorem Engine.topUp_spec (e : Engine) (d : ByteString) (hfi : e.c.fi.toNat < 64) :
    let r := e.topUp d
    r.1.c.valid = e.c.valid ∧ r.1.c.alg = e.c.alg ∧ Engine.sameOtherUnit e.c.alg e r.1 ∧
      ((e.c.fi.toNat + d.length < 64 ∧ 0 < e.c.fi.toNat ∧ r.2 = [] ∧ r.1.c.fi.toNat = e.c.fi.toNat + d.length ∧
          r.1.c.counter = e.c.counter ∧ r.1.c.h = e.c.h ∧ r.1.c.buf = memWrite e.c.buf e.c.fi.toNat d ∧
          r.1.c.live = e.c.live ++ d) ∨
        (r.1.c.fi.toNat = 0 ∧ (e.c.fi.toNat = 0 ∨ 64 ≤ e.c.fi.toNat + d.length) ∧
          r.1.c.buf = (if e.c.fi.toNat = 0 then e.c.buf
            else memWrite e.c.buf e.c.fi.toNat (d.take (64 - e.c.fi.toNat))) ∧
          r.2 = (if e.c.fi.toNat = 0 then d else d.drop (64 - e.c.fi.toNat)) ∧
          r.1.c.counter = (e.c.counter + (if e.c.fi.toNat = 0 then 0 else 1)) % 2 ^ 64 ∧
          ∃ bs : List ByteString, r.1.c.h = hashBlocks e.c.alg e.c.h bs ∧
            bs ++ wholeBlocks r.2 = wholeBlocks (e.c.live ++ d) ∧ leftover r.2 = leftover (e.c.live ++ d))) := by
  have hlive : e.c.live.length = e.c.fi.toNat := by
    rw [Context.live, memRead_length _ _ _ (by omega)]
  have hlt := e.c.counter_lt
  by_cases h0 : e.c.fi.toNat = 0
  · have hnil : e.c.live = [] := List.length_eq_zero_iff.mp (by omega)
    have ht : e.topUp d = (e, d) := by simp [Engine.topUp, h0]
    rw [ht]
    refine ⟨rfl, rfl, by cases h : e.c.alg <;> simp [Engine.sameOtherUnit], .inr ?_⟩
    simp only [h0, if_true, hnil, List.nil_append]
    exact ⟨trivial, .inl trivial, trivial, trivial, by omega, [], rfl, rfl, trivial⟩
  · by_cases hc : e.c.fi.toNat + d.length < 64
    · have htake : min (64 - e.c.fi.toNat) d.length = d.length := by omega
      have ht : e.topUp d =
          ({ e.withBuf (memWrite e.c.buf e.c.fi.toNat d) with
             c := { (e.withBuf (memWrite e.c.buf e.c.fi.toNat d)).c with
               fi := BitVec.ofNat 7 (e.c.fi.toNat + d.length) } }, []) := by
        simp only [Engine.topUp, htake, if_pos (Nat.pos_of_ne_zero h0), List.take_length, List.drop_length]
        rw [if_neg (by omega)]
      rw [ht]
      have hfi' : (BitVec.ofNat 7 (e.c.fi.toNat + d.length)).toNat = e.c.fi.toNat + d.length := by
        rw [BitVec.toNat_ofNat]; omega
      refine ⟨rfl, rfl, by cases h : e.c.alg <;> simp [Engine.sameOtherUnit, Engine.withBuf], .inl ?_⟩
      refine ⟨hc, Nat.pos_of_ne_zero h0, rfl, hfi', rfl, rfl, rfl, ?_⟩
      simp only [Context.live, Engine.withBuf, hfi', memRead, List.drop_zero]
      rw [memWrite_toList _ _ _ (by omega), List.append_assoc, List.take_append, List.take_take]
      have : (e.c.buf.toList.take e.c.fi.toNat).length = e.c.fi.toNat := by simp; omega
      rw [this]
      have h1 : min (e.c.fi.toNat + d.length) e.c.fi.toNat = e.c.fi.toNat := by omega
      have h2 : e.c.fi.toNat + d.length - e.c.fi.toNat = d.length := by omega
      rw [h1, h2, List.take_append_of_le_length (by omega), List.take_length]
    · have htake : min (64 - e.c.fi.toNat) d.length = 64 - e.c.fi.toNat := by omega
      have ht : e.topUp d =
          ({ (e.withBuf (memWrite e.c.buf e.c.fi.toNat (d.take (64 - e.c.fi.toNat)))).absorb
                (memWrite e.c.buf e.c.fi.toNat (d.take (64 - e.c.fi.toNat))).toList with
             c := { ((e.withBuf (memWrite e.c.buf e.c.fi.toNat (d.take (64 - e.c.fi.toNat)))).absorb
                (memWrite e.c.buf e.c.fi.toNat (d.take (64 - e.c.fi.toNat))).toList).c with fi := 0 } },
            d.drop (64 - e.c.fi.toNat)) := by
        simp only [Engine.topUp, htake, if_pos (Nat.pos_of_ne_zero h0), memRead_all]
        rw [if_pos (by omega)]
        rfl
      obtain ⟨a1, a2, a3, a4, a5, a6, a7⟩ :=
        (e.withBuf (memWrite e.c.buf e.c.fi.toNat (d.take (64 - e.c.fi.toNat)))).absorb_spec
          (memWrite e.c.buf e.c.fi.toNat (d.take (64 - e.c.fi.toNat))).toList
      have hblock : (memWrite e.c.buf e.c.fi.toNat (d.take (64 - e.c.fi.toNat))).toList =
          e.c.live ++ d.take (64 - e.c.fi.toNat) := by
        have hl : (d.take (64 - e.c.fi.toNat)).length = 64 - e.c.fi.toNat := by simp; omega
        rw [memWrite_toList _ _ _ (by omega), hl]
        have hd : e.c.buf.toList.drop (e.c.fi.toNat + (64 - e.c.fi.toNat)) = [] := by
          apply List.drop_eq_nil_of_le; simp; omega
        rw [hd, List.append_nil]
        rfl
      have hbl : (e.c.live ++ d.take (64 - e.c.fi.toNat)).length = 64 := by simp [hlive]; omega
      have hsplit : e.c.live ++ d =
          (e.c.live ++ d.take (64 - e.c.fi.toNat)) ++ d.drop (64 - e.c.fi.toNat) := by
        rw [List.append_assoc, List.take_append_drop]
      rw [ht]
      refine ⟨a1, a2, a7, .inr ?_⟩
      simp only [h0, if_false]
      refine ⟨rfl, .inr (by omega), ?_, trivial, ?_, [e.c.live ++ d.take (64 - e.c.fi.toNat)], ?_, ?_, ?_⟩
      · exact a3
      · exact a5
      · rw [hblock] at a6; rw [hashBlocks_cons, hashBlocks_nil]; rw [hblock]; exact a6
      · rw [hsplit, wholeBlocks_block _ _ hbl]; rfl
      · rw [hsplit, leftover_block _ _ hbl]

/-- R123, U_TAIL: fewer than 64 bytes are buffered from BUF[0]. -/
theorem Engine.tail_spec (e : Engine) (d : ByteString) (hd : d.length < 64) (h0 : d = [] ∨ e.c.fi.toNat = 0) :
    let r := e.tail d
    r.c.valid = e.c.valid ∧ r.c.alg = e.c.alg ∧ r.c.h = e.c.h ∧ r.c.counter = e.c.counter ∧
      r.md5 = e.md5 ∧ r.sha1 = e.sha1 ∧ r.c.buf = memWrite e.c.buf 0 d ∧
      r.c.fi.toNat = e.c.fi.toNat + d.length ∧ r.c.live = e.c.live ++ d := by
  by_cases hz : d = []
  · subst hz; simp [Engine.tail, memWrite]
  · have hpos : 0 < d.length := List.length_pos_iff.mpr hz
    have hfi : e.c.fi.toNat = 0 := h0.resolve_left hz
    have hlive : e.c.live = [] := by simp [Context.live, memRead, hfi]
    simp only [Engine.tail, hpos, if_true]
    have hn : (BitVec.ofNat 7 d.length).toNat = d.length := by rw [BitVec.toNat_ofNat]; omega
    refine ⟨trivial, trivial, trivial, rfl, trivial, trivial, trivial, by omega, ?_⟩
    simp only [Context.live, hn, memRead, List.drop_zero] at hlive ⊢
    rw [hlive, memWrite_toList _ _ _ (by omega)]
    simp

/-- R123: `Update(c, D)` on a context with `FI <= 63`: every whole block of the live bytes followed by `D` is
compressed, the counter grows by the number of them, and the rest is live. -/
theorem Engine.update_spec (e : Engine) (d : ByteString) (hfi : e.c.fi.toNat < 64) :
    (e.update d).c.valid = e.c.valid ∧ (e.update d).c.alg = e.c.alg ∧
      (e.update d).c.fi.toNat = (e.c.fi.toNat + d.length) % 64 ∧
      (e.update d).c.counter = (e.c.counter + (e.c.fi.toNat + d.length) / 64) % 2 ^ 64 ∧
      (e.update d).c.h = hashBlocks e.c.alg e.c.h (wholeBlocks (e.c.live ++ d)) ∧
      (e.update d).c.live = leftover (e.c.live ++ d) ∧
      Engine.sameOtherUnit e.c.alg e (e.update d) := by
  have hlt := e.c.counter_lt
  have hlive : e.c.live.length = e.c.fi.toNat := by rw [Context.live, memRead_length _ _ _ (by omega)]
  obtain ⟨t1, t2, t3, t4⟩ := e.topUp_spec d hfi
  set r := e.topUp d with hr
  obtain ⟨d0, d1, d2, d3, d4, d5, d6, d7⟩ := Engine.directBlocks_spec (r.2.length / 64) r.1 r.2
  set q := Engine.directBlocks (r.2.length / 64) r.1 r.2 with hq
  have hql : q.2.length < 64 := by rw [d0]; simp; omega
  have hempty : q.2 = [] ∨ q.1.c.fi.toNat = 0 := by
    rcases t4 with ⟨_, _, hnil, _⟩ | ⟨hz, _⟩
    · left; rw [d0, hnil]; rfl
    · right; rw [d4]; exact hz
  obtain ⟨u1, u2, u3, u4, u5, u6, u7, u8, u9⟩ := q.1.tail_spec q.2 hql hempty
  have hupd : e.update d = q.1.tail q.2 := rfl
  rw [hupd]
  have hother : Engine.sameOtherUnit e.c.alg e (q.1.tail q.2) := by
    rw [t2] at d7
    cases ha : e.c.alg <;> simp only [ha, Engine.sameOtherUnit] at t3 d7 ⊢
    · rw [u6, d7, t3]
    · rw [u5, d7, t3]
  refine ⟨u1.trans (d1.trans t1), u2.trans (d2.trans t2), ?_, ?_, ?_, ?_, hother⟩
  · rw [u8, d4, d0]
    rcases t4 with ⟨hc, _, hnil, hf, _⟩ | ⟨hz, hcase, _, hrest, _⟩
    · rw [hf, hnil]; simp; omega
    · rw [hz, hrest]
      split
      · simp; omega
      · simp; omega
  · rw [u4, d5]
    rcases t4 with ⟨hc, _, hnil, _, hk, _⟩ | ⟨hz, hcase, _, hrest, hk, _⟩
    · rw [hk, hnil]; simp; omega
    · rw [hk, hrest]
      split
      · simp; omega
      · simp; omega
  · rw [u3, d6, t2]
    rcases t4 with ⟨hc, _, hnil, _, _, hh, _⟩ | ⟨_, _, _, _, _, bs, hh, hw, _⟩
    · rw [hh, hnil, wholeBlocks_short (e.c.live ++ d) (by simp [hlive]; omega)]; rfl
    · rw [hh, ← hw, hashBlocks_append]; rfl
  · rw [u9]
    have hql' : q.1.c.live = r.1.c.live := by simp only [Context.live, d3, d4]
    rw [hql', d0]
    rcases t4 with ⟨hc, _, hnil, _, _, _, _, hl⟩ | ⟨hz, _, _, _, _, bs, _, _, hl⟩
    · rw [hl, hnil, leftover_short (e.c.live ++ d) (by simp [hlive]; omega)]; simp
    · rw [← hl]
      simp [Context.live, memRead, hz, leftover]

/-- R125: a context that has absorbed `m` has absorbed `m ++ d` after `Update(c, d)`. -/
theorem Engine.update_holds (e : Engine) (alg : Alg) (m d : ByteString) (h : e.c.holds alg m) :
    (e.update d).c.holds alg (m ++ d) := by
  obtain ⟨h1, h2, h3, h4, h5, h6⟩ := h
  have hfi : e.c.fi.toNat < 64 := by omega
  obtain ⟨u1, u2, u3, u4, u5, u6, _⟩ := e.update_spec d hfi
  refine ⟨u1.trans h1, u2.trans h2, ?_, ?_, ?_, ?_⟩
  · rw [u3, h3]; simp
  · rw [u4, h4, h3]; simp; omega
  · rw [u5, h2, h5, h6, ← hashBlocks_append, ← wholeBlocks_append]
  · rw [u6, h6, ← leftover_append]

end Sys2Proof.Machine
end

