-- ==== Sys2Proof/Laws/Finalize.lean ====
section
/-! SUPPORT. What Finalize, Digest and the HMAC core's own digest do (40_hash_engine R126 to R133, 43_hmac R231,
R240), said once. -/

namespace Sys2Proof.Machine

/-- A `MemWrite` that goes on where `a` ends. -/
theorem memWrite_after (mem : Vector Byte 64) (a rest s : ByteString) (hm : mem.toList = a ++ rest)
    (h : a.length + s.length ≤ 64) : (memWrite mem a.length s).toList = a ++ s ++ rest.drop s.length := by
  rw [memWrite_toList _ _ _ h, hm, List.take_left, List.append_cancel_left_eq]
  rw [List.drop_append]
  simp

/-- A context's buffer is its live bytes and its dead bytes. -/
theorem Context.buf_live (c : Context) : c.buf.toList = c.live ++ c.buf.toList.drop c.fi.toNat := by
  simp [Context.live, memRead]

theorem Context.live_length (c : Context) (h : c.fi.toNat < 64) : c.live.length = c.fi.toNat := by
  rw [Context.live, memRead_length _ _ _ (by omega)]

@[simp] theorem lengthField_length (alg : Alg) (lo hi : Word) : (lengthField alg lo hi).length = 8 := by
  cases alg <;> rfl

theorem zeros_append (m n : Nat) : zeros m ++ zeros n = zeros (m + n) := by simp [zeros]

/-- Writing bytes of BUF changes nothing else. -/
@[simp] theorem Engine.withBuf_withBuf (e : Engine) (b b' : Vector Byte 64) :
    (e.withBuf b).withBuf b' = e.withBuf b' := rfl

@[simp] theorem Engine.withBuf_buf (e : Engine) (b : Vector Byte 64) : (e.withBuf b).c.buf = b := rfl

@[simp] theorem Engine.withBuf_alg (e : Engine) (b : Vector Byte 64) : (e.withBuf b).c.alg = e.c.alg := rfl

/-- R128, R129: after the mark and the fill to the word boundary. -/
theorem Engine.padMark_spec (e : Engine) (h : e.c.fi.toNat < 64) :
    ∃ buf rest, e.padMark = e.withBuf buf ∧
      buf.toList = e.c.live ++ 0x80 :: zeros (4 * filledWords e.c.fi.toNat - (e.c.fi.toNat + 1)) ++ rest := by
  have hl := e.c.live_length h
  have hu : e.c.fi.toNat + 1 + (4 * filledWords e.c.fi.toNat - (e.c.fi.toNat + 1)) ≤ 64 := by
    simp only [filledWords]; omega
  have h1 := memWrite_after e.c.buf e.c.live _ [0x80] e.c.buf_live (by simp [hl]; omega)
  rw [hl] at h1
  have h2 := memWrite_after (memWrite e.c.buf e.c.fi.toNat [0x80]) (e.c.live ++ [0x80]) _
    (zeros (4 * filledWords e.c.fi.toNat - (e.c.fi.toNat + 1))) h1 (by simp [hl]; omega)
  have h3 : (e.c.live ++ [0x80]).length = e.c.fi.toNat + 1 := by simp [hl]
  rw [h3] at h2
  refine ⟨_, ((e.c.buf.toList.drop e.c.fi.toNat).drop [(0x80 : Byte)].length).drop
    (zeros (4 * filledWords e.c.fi.toNat - (e.c.fi.toNat + 1))).length, rfl, h2.trans ?_⟩
  simp only [List.append_assoc, List.cons_append, List.nil_append]

/-- R130 to R132 with at most 14 words used: one block. -/
theorem Engine.finalize_one (e : Engine) (lo hi : Word) (h : e.c.fi.toNat ≤ 55) :
    ∃ buf, e.finalize lo hi = (e.withBuf buf).transform (paddedEnd e.c.alg e.c.live lo hi) ∧
      buf.toList = paddedEnd e.c.alg e.c.live lo hi := by
  have hl := e.c.live_length (by omega)
  obtain ⟨buf, rest, hm, hb⟩ := e.padMark_spec (by omega)
  have hu : ¬ 14 < filledWords e.c.fi.toNat := by simp only [filledWords]; omega
  have hlen : (e.c.live ++ 0x80 :: zeros (4 * filledWords e.c.fi.toNat - (e.c.fi.toNat + 1))).length =
      4 * filledWords e.c.fi.toNat := by simp [hl, filledWords]; omega
  have h1 := memWrite_after buf _ rest (zeros (56 - 4 * filledWords e.c.fi.toNat)) hb
    (by rw [hlen]; simp [filledWords]; omega)
  have hlen2 : (e.c.live ++ 0x80 :: zeros (4 * filledWords e.c.fi.toNat - (e.c.fi.toNat + 1)) ++
      zeros (56 - 4 * filledWords e.c.fi.toNat)).length = 56 := by
    simp [hl, filledWords]; omega
  have h2 := memWrite_after _ _ _ (lengthField e.c.alg lo hi) h1 (by rw [hlen2]; simp)
  rw [hlen, hlen2] at h2
  have hpad : e.c.live ++ 0x80 :: zeros (4 * filledWords e.c.fi.toNat - (e.c.fi.toNat + 1)) ++
      zeros (56 - 4 * filledWords e.c.fi.toNat) ++ lengthField e.c.alg lo hi =
      paddedEnd e.c.alg e.c.live lo hi := by
    unfold paddedEnd
    rw [hl, if_pos h]
    congr 1
    rw [List.append_assoc, List.cons_append, zeros_append]
    congr 3
    simp only [filledWords]; omega
  have hend : ∀ r : ByteString, (memWrite (memWrite buf (4 * filledWords e.c.fi.toNat)
      (zeros (56 - 4 * filledWords e.c.fi.toNat))) 56 (lengthField e.c.alg lo hi)).toList =
      paddedEnd e.c.alg e.c.live lo hi ++ r → r = [] := by
    intro r hr
    have := congrArg List.length hr
    have hp := congrArg List.length hpad
    rw [List.length_append, hlen2, lengthField_length] at hp
    simp only [Vector.length_toList, List.length_append] at this
    exact List.length_eq_zero_iff.mp (by omega)
  rw [hpad] at h2
  have hfin := h2
  rw [hend _ h2, List.append_nil] at hfin
  refine ⟨_, ?_, hfin⟩
  unfold Engine.finalize
  simp only [Engine.padOver, hu, if_false, Engine.padLen, hm, Engine.withBuf_withBuf, Engine.withBuf_buf,
    memRead_all]
  have halg : (e.withBuf (memWrite buf (4 * filledWords e.c.fi.toNat)
      (zeros (56 - 4 * filledWords e.c.fi.toNat)))).c.alg = e.c.alg := rfl
  rw [halg, hfin]

/-- R130 to R132 with more than 14 words used: two blocks. -/
theorem Engine.finalize_two (e : Engine) (lo hi : Word) (h : 55 < e.c.fi.toNat) (h' : e.c.fi.toNat < 64) :
    ∃ buf buf', e.finalize lo hi =
      (((e.withBuf buf).transform (e.c.live ++ 0x80 :: zeros (63 - e.c.fi.toNat))).withBuf buf').transform
        (zeros 56 ++ lengthField e.c.alg lo hi) := by
  have hl := e.c.live_length h'
  obtain ⟨buf, rest, hm, hb⟩ := e.padMark_spec h'
  have hu : 14 < filledWords e.c.fi.toNat := by simp only [filledWords]; omega
  have hlen : (e.c.live ++ 0x80 :: zeros (4 * filledWords e.c.fi.toNat - (e.c.fi.toNat + 1))).length =
      4 * filledWords e.c.fi.toNat := by simp [hl, filledWords]; omega
  have h1 := memWrite_after buf _ rest (zeros (64 - 4 * filledWords e.c.fi.toNat)) hb
    (by rw [hlen]; simp [filledWords]; omega)
  rw [hlen] at h1
  have hrest : rest.drop (zeros (64 - 4 * filledWords e.c.fi.toNat)).length = [] := by
    have := congrArg List.length hb
    rw [List.length_append, hlen, Vector.length_toList] at this
    apply List.drop_eq_nil_of_le
    simp; omega
  rw [hrest, List.append_nil, List.append_assoc, List.cons_append, zeros_append] at h1
  have hz : 4 * filledWords e.c.fi.toNat - (e.c.fi.toNat + 1) + (64 - 4 * filledWords e.c.fi.toNat) =
      63 - e.c.fi.toNat := by simp only [filledWords]; omega
  rw [hz] at h1
  refine ⟨memWrite buf (4 * filledWords e.c.fi.toNat) (zeros (64 - 4 * filledWords e.c.fi.toNat)),
    memWrite (memWrite ((e.withBuf (memWrite buf (4 * filledWords e.c.fi.toNat)
      (zeros (64 - 4 * filledWords e.c.fi.toNat)))).transform
        (e.c.live ++ 0x80 :: zeros (63 - e.c.fi.toNat))).c.buf 0 (zeros 56)) 56 (lengthField e.c.alg lo hi), ?_⟩
  unfold Engine.finalize
  simp only [Engine.padOver, hu, if_true, Engine.padLen, hm, Engine.withBuf_withBuf, Engine.withBuf_buf,
    memRead_all, h1]
  have ha : ((e.withBuf (memWrite buf (4 * filledWords e.c.fi.toNat)
      (zeros (64 - 4 * filledWords e.c.fi.toNat)))).transform
        (e.c.live ++ 0x80 :: zeros (63 - e.c.fi.toNat))).c.alg = e.c.alg := by
    simp only [Engine.withBuf, Engine.transform_c]
  generalize ((e.withBuf (memWrite buf (4 * filledWords e.c.fi.toNat)
      (zeros (64 - 4 * filledWords e.c.fi.toNat)))).transform
        (e.c.live ++ 0x80 :: zeros (63 - e.c.fi.toNat))) = x at ha ⊢
  have hb' : (x.withBuf (memWrite x.c.buf 0 (zeros (56 - 0)))).c.alg = e.c.alg := by
    rw [Engine.withBuf_alg, ha]
  have g1 := memWrite_after x.c.buf [] x.c.buf.toList (zeros 56) rfl (by simp)
  have g2 := memWrite_after (memWrite x.c.buf 0 (zeros 56)) (zeros 56) (x.c.buf.toList.drop 56)
    (lengthField e.c.alg lo hi) (by simpa using g1) (by simp)
  have g3 : (memWrite (memWrite x.c.buf 0 (zeros 56)) 56 (lengthField e.c.alg lo hi)).toList =
      zeros 56 ++ lengthField e.c.alg lo hi := by
    rw [zeros_length, lengthField_length, List.drop_drop] at g2
    rw [g2, List.drop_eq_nil_of_le (by simp), List.append_nil]
  rw [hb', Nat.sub_zero, g3]

/-- R128 to R132: `Finalize` compresses the padded end of the message, one block or two, and changes only BUF, the
working words and the unit of its algorithm. -/
theorem Engine.finalize_spec (e : Engine) (lo hi : Word) (h : e.c.fi.toNat < 64) :
    (e.finalize lo hi).c.valid = e.c.valid ∧ (e.finalize lo hi).c.alg = e.c.alg ∧
      (e.finalize lo hi).c.fi = e.c.fi ∧ (e.finalize lo hi).c.bcLo = e.c.bcLo ∧
      (e.finalize lo hi).c.bcHi = e.c.bcHi ∧
      (e.finalize lo hi).c.h =
        hashBlocks e.c.alg e.c.h (wholeBlocks (paddedEnd e.c.alg e.c.live lo hi)) ∧
      Engine.sameOtherUnit e.c.alg e (e.finalize lo hi) := by
  have hl := e.c.live_length h
  by_cases hs : e.c.fi.toNat ≤ 55
  · obtain ⟨buf, hf, hb⟩ := e.finalize_one lo hi hs
    have hlen : (paddedEnd e.c.alg e.c.live lo hi).length = 64 := by
      rw [← hb, Vector.length_toList]
    have hw : wholeBlocks (paddedEnd e.c.alg e.c.live lo hi) = [paddedEnd e.c.alg e.c.live lo hi] := by
      have := wholeBlocks_block _ [] hlen
      rwa [List.append_nil, wholeBlocks_short [] (by simp)] at this
    have hother := (e.withBuf buf).transform_other (paddedEnd e.c.alg e.c.live lo hi)
    rw [hf, hw]
    simp only [Engine.transform_c]
    exact ⟨rfl, rfl, rfl, rfl, rfl, rfl, hother⟩
  · obtain ⟨buf, buf', hf⟩ := e.finalize_two lo hi (by omega) h
    have hsplit : paddedEnd e.c.alg e.c.live lo hi =
        (e.c.live ++ 0x80 :: zeros (63 - e.c.fi.toNat)) ++ (zeros 56 ++ lengthField e.c.alg lo hi) := by
      unfold paddedEnd
      rw [hl, if_neg hs]
      have hz : 119 - e.c.fi.toNat = 63 - e.c.fi.toNat + 56 := by omega
      rw [hz, ← zeros_append]
      simp
    have hlen1 : (e.c.live ++ 0x80 :: zeros (63 - e.c.fi.toNat)).length = 64 := by simp [hl]; omega
    have hlen2 : (zeros 56 ++ lengthField e.c.alg lo hi).length = 64 := by simp
    have hw : wholeBlocks (paddedEnd e.c.alg e.c.live lo hi) =
        [e.c.live ++ 0x80 :: zeros (63 - e.c.fi.toNat), zeros 56 ++ lengthField e.c.alg lo hi] := by
      rw [hsplit, wholeBlocks_block _ _ hlen1]
      have := wholeBlocks_block _ [] hlen2
      rw [List.append_nil, wholeBlocks_short [] (by simp)] at this
      rw [this]
    have ho1 := (e.withBuf buf).transform_other (e.c.live ++ 0x80 :: zeros (63 - e.c.fi.toNat))
    have ho2 := (((e.withBuf buf).transform (e.c.live ++ 0x80 :: zeros (63 - e.c.fi.toNat))).withBuf
      buf').transform_other (zeros 56 ++ lengthField e.c.alg lo hi)
    have hother : Engine.sameOtherUnit e.c.alg e (e.finalize lo hi) := by
      rw [hf]
      have ha : (((e.withBuf buf).transform (e.c.live ++ 0x80 :: zeros (63 - e.c.fi.toNat))).withBuf
          buf').c.alg = e.c.alg := by simp only [Engine.withBuf, Engine.transform_c]
      have hb : (e.withBuf buf).c.alg = e.c.alg := rfl
      rw [ha] at ho2
      rw [hb] at ho1
      cases hc : e.c.alg <;> simp only [hc, Engine.sameOtherUnit] at ho1 ho2 ⊢ <;> exact ho2.trans ho1
    refine ⟨?_, ?_, ?_, ?_, ?_, ?_, hother⟩ <;> rw [hf] <;> simp only [Engine.transform_c, Engine.withBuf]
    rw [hw]
    rfl

/-- R126: `Digest(c)` answers the digest words of the padded end and finalises the copy. -/
theorem Engine.digest_spec (e : Engine) (h : e.c.fi.toNat < 64) :
    e.digest.2 = extract e.c.alg
      (hashBlocks e.c.alg e.c.h (wholeBlocks (paddedEnd e.c.alg e.c.live e.c.bitLo e.c.bitHi))) ∧
    Engine.sameOtherUnit e.c.alg e e.digest.1 := by
  obtain ⟨_, h2, _, _, _, h6, h7⟩ := e.finalize_spec e.c.bitLo e.c.bitHi h
  refine ⟨?_, h7⟩
  simp only [Engine.digest, h2, h6]

/-- The bit count of a context that has absorbed `m` is the length of `m` in bits (R127). -/
theorem Context.bitTotal_holds (c : Context) (alg : Alg) (m : ByteString) (h : c.holds alg m) :
    c.bitTotal = messageBits m := by
  obtain ⟨_, _, h3, h4, _, _⟩ := h
  unfold Context.bitTotal messageBits
  rw [h3]
  have : c.bcHi.toNat * 2 ^ 32 + c.bcLo.toNat = m.length / 64 % 2 ^ 64 := h4
  rw [this]
  apply BitVec.eq_of_toNat_eq
  simp only [BitVec.toNat_ofNat]
  omega

/-- R120, R126: the digest of a context that has absorbed `m` is the digest of `m`. -/
theorem Engine.digest_holds (e : Engine) (alg : Alg) (m : ByteString) (h : e.c.holds alg m) :
    e.digest.2 = messageDigest alg m := by
  have hb := e.c.bitTotal_holds alg m h
  obtain ⟨_, h2, h3, _, h5, h6⟩ := h
  rw [(e.digest_spec (by omega)).1, h2, h5, h6]
  simp only [Context.bitLo, Context.bitHi, hb, messageDigest, ← hashBlocks_append]

/-- R133: a digest has `DL` bytes. -/
theorem extract_length (alg : Alg) (h : Vector Word 5) : (extract alg h).length = digestBytes alg := by
  cases alg <;> rfl

/-! ### The HMAC core's own digest -/

/-- `Init(HC)`, the updates and `Digest(HC)` answer the digest of the parts put together, and change HC, SH and the
units only. -/
theorem State.ownDigest_spec (s : State) (alg : Alg) (parts : List ByteString) :
    (s.ownDigest alg parts).2 = messageDigest alg parts.flatten ∧
      ∃ hc sh md5 sha1, (s.ownDigest alg parts).1 = { s with hc := hc, sh := sh, md5 := md5, sha1 := sha1 } := by
  have key : ∀ (ps : List ByteString) (e : Engine) (m : ByteString), e.c.holds alg m →
      (ps.foldl Engine.update e).c.holds alg (m ++ ps.flatten) := by
    intro ps
    induction ps with
    | nil => intro e m h; simpa using h
    | cons p ps ih =>
      intro e m h
      have := ih (e.update p) (m ++ p) (e.update_holds alg m p h)
      simpa using this
  refine ⟨?_, _, _, _, _, rfl⟩
  have h := key parts (s.engine (s.hc.init alg)) [] (Context.init_holds s.hc alg)
  rw [List.nil_append] at h
  exact Engine.digest_holds _ alg _ h

end Sys2Proof.Machine
end

