-- ==== Sys2Proof/Laws/Exec.lean ====
section
/-! SUPPORT. What each command does when it answers a next state, said once: a fault was taken, or every check passed and
the command had its effect. -/

namespace Sys2Proof.Machine

/-- The effect of a command whose checks all pass, from `s` to `t`, with the checks that passed. The contexts and the
units that an engine procedure leaves are named, with what is known of them. -/
def effect (s t : State) : Instr → Prop
  | .dInit k alg =>
    s.cmd.payload = [] ∧ k.toNat < s.params.nctx ∧ t = (s.setCtx k ((s.getCtx k).init alg)).respond []
  | .dReset k =>
    s.cmd.payload = [] ∧ k.toNat < s.params.nctx ∧ (s.getCtx k).valid = true ∧
      t = (s.setCtx k ((s.getCtx k).init (s.getCtx k).alg)).respond []
  | .dUpdate k len =>
    s.cmd.payload.length = len ∧ k.toNat < s.params.nctx ∧ (s.getCtx k).valid = true ∧ (s.getCtx k).fi.toNat < 64 ∧
      ∃ md5 sha1, t = ({ s with md5 := md5, sha1 := sha1 }.setCtx k
        ((s.engine (s.getCtx k)).update s.cmd.payload).c).respond []
  | .dDigest k =>
    s.cmd.payload = [] ∧ k.toNat < s.params.nctx ∧ (s.getCtx k).valid = true ∧ (s.getCtx k).fi.toNat < 64 ∧
      ∃ sh md5 sha1, t = { s with sh := sh, md5 := md5, sha1 := sha1 }.respond (s.engine (s.getCtx k)).digest.2
  | .dClone dst src =>
    s.cmd.payload = [] ∧ dst.toNat < s.params.nctx ∧ src.toNat < s.params.nctx ∧ (s.getCtx src).valid = true ∧
      t = (s.setCtx dst (s.getCtx src)).respond []
  | .dLen k =>
    s.cmd.payload = [] ∧ k.toNat < s.params.nctx ∧ (s.getCtx k).valid = true ∧
      t = s.respond [BitVec.ofNat 8 (digestBytes (s.getCtx k).alg)]
  | .hKey alg len =>
    s.cmd.payload.length = len ∧
      ∃ hc sh md5 sha1, t = { s with
        hc := hc
        sh := sh
        md5 := md5
        sha1 := sha1
        kipad := xorPad (padKey (hmacKey alg s.cmd.payload)) 0x36
        kopad := xorPad (padKey (hmacKey alg s.cmd.payload)) 0x5C
        halg := alg
        accLen := 0
        keyed := true }.respond []
  | .hReset => s.cmd.payload = [] ∧ s.keyed = true ∧ t = { s with accLen := 0 }.respond []
  | .hUpdate len =>
    s.cmd.payload.length = len ∧ s.keyed = true ∧ (∀ cap, s.params.accCap = some cap → s.accLen + len ≤ cap) ∧
      t = (s.appendAcc s.cmd.payload).respond []
  | .hDigest =>
    s.cmd.payload = [] ∧ s.keyed = true ∧ (∀ cap, s.params.accCap = some cap → s.accLen ≤ cap) ∧
      ∃ hc sh md5 sha1, t = { s with hc := hc, sh := sh, md5 := md5, sha1 := sha1 }.respond
        (messageDigest s.halg (s.kopad.toList ++ messageDigest s.halg (s.kipad.toList ++ s.accMessage)))

/-- Reading a context after writing one. -/
theorem State.getCtx_setCtx (s : State) (k j : BitVec 4) (c : Context) :
    (s.setCtx k c).getCtx j = if j = k then c else s.getCtx j := by
  simp only [State.getCtx, State.setCtx, Vector.getElem_set]
  by_cases h : j = k
  · simp [h]
  · rw [if_neg h, if_neg fun h' => h (BitVec.eq_of_toNat_eq h'.symm)]

@[simp] theorem State.badPayload_eq_false (s : State) (len : Nat) :
    s.badPayload len = false ↔ s.cmd.payload.length = len := by simp [State.badPayload]

@[simp] theorem State.badCtx_eq_false (s : State) (k : BitVec 4) : s.badCtx k = false ↔ k.toNat < s.params.nctx := by
  simp [State.badCtx]

@[simp] theorem State.invalidCtx_eq_false (s : State) (k : BitVec 4) :
    s.invalidCtx k = false ↔ (s.getCtx k).valid = true := by simp [State.invalidCtx]

@[simp] theorem State.unkeyed_eq_false (s : State) : s.unkeyed = false ↔ s.keyed = true := by simp [State.unkeyed]

/-- A key that is short enough is used as it is; a longer one is replaced by its digest, on HC. -/
theorem State.shortKey_spec (s : State) (alg : Alg) (key : ByteString) :
    (s.shortKey alg key).2 = hmacKey alg key ∧
      ∃ hc sh md5 sha1, (s.shortKey alg key).1 = { s with hc := hc, sh := sh, md5 := md5, sha1 := sha1 } := by
  unfold State.shortKey hmacKey
  split
  · obtain ⟨h1, h2⟩ := s.ownDigest_spec alg [key]
    exact ⟨by simpa using h1, h2⟩
  · exact ⟨rfl, s.hc, s.sh, s.md5, s.sha1, rfl⟩

/-- The outer pass answers the digest of KOPAD and the inner digest; HC, SH and the units change only. -/
theorem State.twoPasses_spec (s : State) :
    s.twoPasses.2 =
        messageDigest s.halg (s.kopad.toList ++ messageDigest s.halg (s.kipad.toList ++ s.accMessage)) ∧
      ∃ hc sh md5 sha1, s.twoPasses.1 = { s with hc := hc, sh := sh, md5 := md5, sha1 := sha1 } := by
  obtain ⟨h1, hc, sh, md5, sha1, h2⟩ := s.ownDigest_spec s.halg [memRead s.kipad 0 64, s.accMessage]
  obtain ⟨h3, h4⟩ := (s.ownDigest s.halg [memRead s.kipad 0 64, s.accMessage]).1.ownDigest_spec s.halg
    [memRead s.kopad 0 64, (s.ownDigest s.halg [memRead s.kipad 0 64, s.accMessage]).2]
  refine ⟨?_, ?_⟩
  · rw [State.twoPasses, h1] at *
    simpa [h2] using h3
  · obtain ⟨hc', sh', md5', sha1', h4⟩ := h4
    exact ⟨hc', sh', md5', sha1', by rw [State.twoPasses, h4, h2]⟩

/-- If a command answers a next state, a fault was taken or the command had its effect. -/
theorem exec_cases (i : Instr) (s t : State) (h : exec i s = .next t) :
    (∃ code, t = s.takeFault code) ∨ effect s t i := by
  cases i with
  | dInit k alg =>
    rcases State.withChecks_next _ _ _ _ h with ⟨code, -, h⟩ | ⟨hc, h⟩
    · exact .inl ⟨code, h⟩
    · cases h; exact .inr (by simpa [effect] using hc)
  | dReset k =>
    rcases State.withChecks_next _ _ _ _ h with ⟨code, -, h⟩ | ⟨hc, h⟩
    · exact .inl ⟨code, h⟩
    · cases h; exact .inr (by simpa [effect] using hc)
  | dUpdate k len =>
    rcases State.withChecks_next _ _ _ _ h with ⟨code, -, h⟩ | ⟨hc, h⟩
    · exact .inl ⟨code, h⟩
    · obtain ⟨hfi, h⟩ := Context.indexed_next _ _ _ h
      cases h
      simp only [List.mem_cons, List.not_mem_nil, or_false, forall_eq_or_imp, forall_eq, State.badPayload_eq_false,
        State.badCtx_eq_false, State.invalidCtx_eq_false] at hc
      exact .inr ⟨hc.1, hc.2.1, hc.2.2, hfi, _, _, rfl⟩
  | dDigest k =>
    rcases State.withChecks_next _ _ _ _ h with ⟨code, -, h⟩ | ⟨hc, h⟩
    · exact .inl ⟨code, h⟩
    · obtain ⟨hfi, h⟩ := Context.indexed_next _ _ _ h
      cases h
      simp only [List.mem_cons, List.not_mem_nil, or_false, forall_eq_or_imp, forall_eq, State.badPayload_eq_false,
        State.badCtx_eq_false, State.invalidCtx_eq_false, List.length_eq_zero_iff] at hc
      exact .inr ⟨hc.1, hc.2.1, hc.2.2, hfi, _, _, _, rfl⟩
  | dClone dst src =>
    rcases State.withChecks_next _ _ _ _ h with ⟨code, -, h⟩ | ⟨hc, h⟩
    · exact .inl ⟨code, h⟩
    · cases h; exact .inr (by simpa [effect, and_assoc] using hc)
  | dLen k =>
    rcases State.withChecks_next _ _ _ _ h with ⟨code, -, h⟩ | ⟨hc, h⟩
    · exact .inl ⟨code, h⟩
    · cases h; exact .inr (by simpa [effect] using hc)
  | hKey alg len =>
    rcases State.withChecks_next _ _ _ _ h with ⟨code, -, h⟩ | ⟨hc, h⟩
    · exact .inl ⟨code, h⟩
    · cases h
      obtain ⟨h1, hc', sh, md5, sha1, h2⟩ := s.shortKey_spec alg s.cmd.payload
      simp only [List.mem_cons, List.not_mem_nil, or_false, forall_eq_or_imp, forall_eq,
        State.badPayload_eq_false] at hc
      exact .inr ⟨hc.1, hc', sh, md5, sha1, by rw [State.deriveKey, h1, h2]⟩
  | hReset =>
    rcases State.withChecks_next _ _ _ _ h with ⟨code, -, h⟩ | ⟨hc, h⟩
    · exact .inl ⟨code, h⟩
    · cases h; exact .inr (by simpa [effect] using hc)
  | hUpdate len =>
    rcases State.withChecks_next _ _ _ _ h with ⟨code, -, h⟩ | ⟨hc, h⟩
    · exact .inl ⟨code, h⟩
    · cases h; exact .inr (by simpa [effect] using hc)
  | hDigest =>
    rcases State.withChecks_next _ _ _ _ h with ⟨code, -, h⟩ | ⟨hc, h⟩
    · exact .inl ⟨code, h⟩
    · obtain ⟨hle, h⟩ := State.accIndexed_next _ _ _ h
      cases h
      obtain ⟨h1, hc', sh, md5, sha1, h2⟩ := s.twoPasses_spec
      simp only [List.mem_cons, List.not_mem_nil, or_false, forall_eq_or_imp, forall_eq,
        State.badPayload_eq_false, State.unkeyed_eq_false, List.length_eq_zero_iff] at hc
      exact .inr ⟨hc.1, hc.2, hle, hc', sh, md5, sha1, by rw [h1, h2]⟩

end Sys2Proof.Machine
end

