-- ==== Sys2Proof/Laws/Hmac.lean ====
section
/-! SUPPORT. The HMAC core's pads and accumulator (43_hmac R232, R233, R236), said once. -/

namespace Sys2Proof.Machine

theorem hmacKey_length (alg : Alg) (key : ByteString) : (hmacKey alg key).length ≤ 64 := by
  unfold hmacKey
  split
  · rw [messageDigest, extract_length]; cases alg <;> decide
  · omega

/-- A padded key, XORed, is the key and the zeros XORed byte by byte. -/
theorem xorPad_padKey_toList (key : ByteString) (pad : Byte) (h : key.length ≤ 64) :
    (xorPad (padKey key) pad).toList = (key ++ zeros (64 - key.length)).map fun b => b ^^^ pad := by
  have hk : (padKey key).toList = key ++ zeros (64 - key.length) := by
    rw [padKey, memWrite_toList _ _ _ (by omega), Vector.toList_replicate, List.take_zero, List.nil_append,
      List.drop_replicate, Nat.zero_add, zeros]
  rw [← hk]
  apply List.ext_getElem
  · simp
  · intro n h1 h2; simp [xorPad]

/-- R231 to R233: the pads that `H_KEY` derives are those of the whole-key form. -/
theorem xorPad_hmacKey (alg : Alg) (key : ByteString) (pad : Byte) :
    (xorPad (padKey (hmacKey alg key)) pad).toList = hmacPad alg key pad :=
  xorPad_padKey_toList _ _ (hmacKey_length alg key)

/-- R236: the message accumulated grows by the payload. -/
theorem State.accMessage_appendAcc (s : State) (p : ByteString) :
    (s.appendAcc p).accMessage = s.accMessage ++ p := by
  have hb (i : Nat) : (s.appendAcc p).accByte i =
      if h : s.accLen ≤ i ∧ i < s.accLen + p.length then p[i - s.accLen] else s.accByte i := by
    simp only [State.accByte, State.appendAcc, Memory.read?_writeBytes]
    split
    · rw [List.getElem?_eq_getElem (by omega)]; rfl
    · rfl
  apply List.ext_getElem
  · simp [State.accMessage, State.appendAcc]
  · intro n h1 h2
    simp only [State.accMessage, List.length_map, List.length_range, List.getElem_map, List.getElem_range] at h1 ⊢
    rw [hb, List.getElem_append]
    simp only [State.appendAcc] at h1
    by_cases hn : n < s.accLen
    · rw [dif_neg (by omega), dif_pos (by simpa using hn)]; simp
    · rw [dif_pos (by omega), dif_neg (by simpa using hn)]; simp

end Sys2Proof.Machine
end

