-- ==== Sys2Proof/Laws/PerInstr.lean ====
section
/-! SUPPORT. Per-command lemmas. Family TableRow: the word of a command carries the match value of its row of the
opcode table under the row's mask (30_encoding R95). -/

namespace Sys2Proof.Laws.TableRow

/-- R95: `CW & mask = match` for the word of a command. -/
def Statement (i : Instr) : Prop := encode i &&& rowMask i = rowMatch i

theorem dInit (ctx : BitVec 4) (alg : Alg) : Statement (.dInit ctx alg) := by
  rw [Statement, encode, and_eq_iff_fields, fieldsOf_wordOf, fieldsOf_rowMask, fieldsOf_rowMatch]
  simp [fieldsOfInstr, maskFields]

theorem dReset (ctx : BitVec 4) : Statement (.dReset ctx) := by
  rw [Statement, encode, and_eq_iff_fields, fieldsOf_wordOf, fieldsOf_rowMask, fieldsOf_rowMatch]
  simp [fieldsOfInstr, maskFields]

theorem dUpdate (ctx : BitVec 4) (len : Nat) : Statement (.dUpdate ctx len) := by
  rw [Statement, encode, and_eq_iff_fields, fieldsOf_wordOf, fieldsOf_rowMask, fieldsOf_rowMatch]
  simp [fieldsOfInstr, maskFields]

theorem dDigest (ctx : BitVec 4) : Statement (.dDigest ctx) := by
  rw [Statement, encode, and_eq_iff_fields, fieldsOf_wordOf, fieldsOf_rowMask, fieldsOf_rowMatch]
  simp [fieldsOfInstr, maskFields]

theorem dClone (dst src : BitVec 4) : Statement (.dClone dst src) := by
  rw [Statement, encode, and_eq_iff_fields, fieldsOf_wordOf, fieldsOf_rowMask, fieldsOf_rowMatch]
  simp [fieldsOfInstr, maskFields]

theorem dLen (ctx : BitVec 4) : Statement (.dLen ctx) := by
  rw [Statement, encode, and_eq_iff_fields, fieldsOf_wordOf, fieldsOf_rowMask, fieldsOf_rowMatch]
  simp [fieldsOfInstr, maskFields]

theorem hKey (alg : Alg) (len : Nat) : Statement (.hKey alg len) := by
  rw [Statement, encode, and_eq_iff_fields, fieldsOf_wordOf, fieldsOf_rowMask, fieldsOf_rowMatch]
  simp [fieldsOfInstr, maskFields]

theorem hReset : Statement .hReset := by
  rw [Statement, encode, and_eq_iff_fields, fieldsOf_wordOf, fieldsOf_rowMask, fieldsOf_rowMatch]
  simp [fieldsOfInstr, maskFields]

theorem hUpdate (len : Nat) : Statement (.hUpdate len) := by
  rw [Statement, encode, and_eq_iff_fields, fieldsOf_wordOf, fieldsOf_rowMask, fieldsOf_rowMatch]
  simp [fieldsOfInstr, maskFields]

theorem hDigest : Statement .hDigest := by
  rw [Statement, encode, and_eq_iff_fields, fieldsOf_wordOf, fieldsOf_rowMask, fieldsOf_rowMatch]
  simp [fieldsOfInstr, maskFields]

end Sys2Proof.Laws.TableRow
end

