-- ==== Sys2Proof/Laws/Step.lean ====
section
/-! SUPPORT. Everything a step can do, said once. -/

namespace Sys2Proof.Machine

@[simp] theorem State.atPort_cmd (s : State) (tr : Transaction) (rest : List HostAct) : (s.atPort tr rest).cmd = tr := rfl

@[simp] theorem State.takeFault_faulted (s : State) (code : FaultCode) : s.takeFault code = s.faulted code.number := rfl

/-- If a step answers a next state, it waited, or carried out the oldest act of the host: refused a command in FAULTED,
ran a decoded command, took the fault of an undecodable word, reset the block, or read a status register. -/
theorem step_cases (s t : State) (h : step s = .next t) :
    (s.pending = [] ∧ t = s) ∨
      (∃ tr rest, s.pending = .command tr :: rest ∧ s.seq = .faulted ∧
        t = ({ s with pending := rest }).respondFault) ∨
      (∃ tr rest i, s.pending = .command tr :: rest ∧ s.seq = .idle ∧ decode tr.cw = .command i ∧
        exec i (s.atPort tr rest) = .next t) ∨
      (∃ tr rest, s.pending = .command tr :: rest ∧ s.seq = .idle ∧ decode tr.cw = .illegalOpc ∧
        t = (s.atPort tr rest).faulted 1) ∨
      (∃ tr rest, s.pending = .command tr :: rest ∧ s.seq = .idle ∧ decode tr.cw = .reserved ∧
        t = (s.atPort tr rest).faulted 2) ∨
      (∃ act rest, s.pending = act :: rest ∧ act.resets = true ∧ t = ({ s with pending := rest }).hardwareReset) ∨
      (∃ n rest, s.pending = .statRead n :: rest ∧ t = ({ s with pending := rest }).readStatus n) := by
  unfold step State.takeAct at h
  split at h
  · exact .inl ⟨‹_›, by cases h; rfl⟩
  · rename_i act rest hp
    cases act with
    | command tr =>
      cases hq : s.seq with
      | faulted =>
        simp only [State.carryOut, State.present, hq, Host.Outcome.next.injEq] at h
        exact .inr (.inl ⟨tr, rest, hp, rfl, h.symm⟩)
      | idle =>
        have hs : { ({ s with pending := rest } : State) with cmd := tr } = s.atPort tr rest := rfl
        simp only [State.carryOut, State.present] at h
        rw [hs] at h
        simp only [hq, State.runCommand, State.atPort_cmd] at h
        cases hd : decode tr.cw with
        | command i =>
          simp only [hd] at h
          exact .inr (.inr (.inl ⟨tr, rest, i, hp, rfl, hd, h⟩))
        | illegalOpc =>
          simp only [hd, Host.Outcome.next.injEq] at h
          exact .inr (.inr (.inr (.inl ⟨tr, rest, hp, rfl, hd, h.symm⟩)))
        | reserved =>
          simp only [hd, Host.Outcome.next.injEq] at h
          exact .inr (.inr (.inr (.inr (.inl ⟨tr, rest, hp, rfl, hd, h.symm⟩))))
    | commandAbandoned tr =>
      simp only [State.carryOut, Host.Outcome.next.injEq] at h
      exact .inr (.inr (.inr (.inr (.inr (.inl ⟨_, rest, hp, rfl, h.symm⟩)))))
    | reset =>
      simp only [State.carryOut, Host.Outcome.next.injEq] at h
      exact .inr (.inr (.inr (.inr (.inr (.inl ⟨_, rest, hp, rfl, h.symm⟩)))))
    | statRead n =>
      simp only [State.carryOut, Host.Outcome.next.injEq] at h
      exact .inr (.inr (.inr (.inr (.inr (.inr ⟨n, rest, hp, h.symm⟩)))))

end Sys2Proof.Machine
end

