-- ==== Sys2Proof/Laws/Transforms.lean ====
section
/-! SUPPORT. The transforms' rotation, table and schedule lookups against the forms that claims write out (41_md5 R182,
42_sha1 R203, R204). -/

namespace Sys2Proof.Machine

/-- R11: `rotl` is the rotation of a word. -/
theorem rotl_eq_rotateLeft (a : Word) (n : Nat) (h : n < 32) : rotl a n = a.rotateLeft n := by
  rw [BitVec.rotateLeft_def, Nat.mod_eq_of_lt h]; rfl

/-- R182: the formulas of R178 to R180 generate the table. -/
theorem rfcTable_row : ∀ i < 64, rfcTable.getD i (0, 0, 0) = (md5Index i, md5Shift i, md5T.getD i 0) := by decide

/-- R174 to R177: the function of a step, by its round. -/
theorem rfcFunction_eq (i : Nat) (h : i < 64) (x y z : Word) : rfcFunction i x y z = md5Fun i x y z := by
  unfold rfcFunction md5Fun
  have : i / 16 = 0 ∨ i / 16 = 1 ∨ i / 16 = 2 ∨ i / 16 = 3 := by omega
  rcases this with h | h | h | h <;> rw [h]
  · rw [if_pos (by omega)]; rfl
  · rw [if_neg (by omega), if_pos (by omega)]; rfl
  · rw [if_neg (by omega), if_neg (by omega), if_pos (by omega)]; rfl
  · rw [if_neg (by omega), if_neg (by omega), if_neg (by omega)]; rfl

/-- No step writes the schedule. -/
theorem sha1Step_foldl_w (u : Sha1Unit) (ts : List Nat) : (ts.foldl sha1Step u).w = u.w := by
  induction ts generalizing u with
  | nil => rfl
  | cons t ts ih => exact ih (sha1Step u t)

end Sys2Proof.Machine
end

