-- ==== Sys2Proof/Tests/Slice0.lean ====
section
/-! SUPPORT. The model's own tests, from the worked examples and vectors of spec/, and a witness for the hypotheses of
each statement. -/

namespace Sys2Proof.Machine

-- One test after the other: checked side by side, the evaluations need more threads than the memory limit allows.
set_option Elab.async false

/-! ### Small states -/

/-- The state after reset with NCTX = 2 and ACC_CAP = 8. -/
def small : State := { State.reset with params := { nctx := 2, accCap := some 8 } }

/-- `s` with a transaction at the CMD port. -/
def holding (s : State) (cw : Word) (p : ByteString) : State := { s with cmd := { cw := cw, payload := p } }

/-- `s` with one act of the host pending. -/
def facing (s : State) (act : HostAct) : State := { s with pending := [act] }

/-- `s` with context `k` constructed for `alg` and holding the message `m` of fewer than 64 bytes. -/
def absorbed (s : State) (k : BitVec 4) (alg : Alg) (m : ByteString) : State :=
  s.setCtx k { Context.reset.init alg with
    buf := memWrite (Vector.replicate 64 0) 0 m
    fi := BitVec.ofNat 7 m.length }

/-- `s` keyed for `alg` with the padded key `pk`, with the message `m` accumulated. -/
def keyedWith (s : State) (alg : Alg) (pk : Vector Byte 64) (m : ByteString) : State :=
  { s with
    keyed := true
    halg := alg
    kipad := Vector.ofFn fun j => pk[j] ^^^ 0x36
    kopad := Vector.ofFn fun j => pk[j] ^^^ 0x5C
    acc := Memory.writeBytes [] 0 m
    accLen := m.length }

/-- The key "Jefe", padded with zeros. -/
def jefe : Vector Byte 64 := memWrite (Vector.replicate 64 0) 0 [0x4A, 0x65, 0x66, 0x65]

/-- "what do ya want for nothing?" -/
def question : ByteString :=
  [0x77, 0x68, 0x61, 0x74, 0x20, 0x64, 0x6F, 0x20, 0x79, 0x61, 0x20, 0x77, 0x61, 0x6E, 0x74, 0x20,
   0x66, 0x6F, 0x72, 0x20, 0x6E, 0x6F, 0x74, 0x68, 0x69, 0x6E, 0x67, 0x3F]

/-- The response a command gives, if it answers a next state. -/
def response (i : Instr) (s : State) : Option Response :=
  match exec i s with
  | .next t => t.rsp.getLast?
  | .fault _ => none
  | .refused _ => none

/-- What a field of the next state is, if a command answers one. -/
def after {α : Type} (i : Instr) (s : State) (field : State → α) : Option α :=
  match exec i s with
  | .next t => some (field t)
  | .fault _ => none
  | .refused _ => none

/-- What a field of the next state is, if a step answers one. -/
def stepped {α : Type} (s : State) (field : State → α) : Option α :=
  match step s with
  | .next t => some (field t)
  | .fault _ => none
  | .refused _ => none

/-! ### Well-formedness: LEN is 16 bits (30_encoding R91) -/

theorem test_wf_largest_payload : (Instr.dUpdate 0 65535).wf = true := by decide

theorem test_ill_formed_dUpdate : (Instr.dUpdate 0 65536).wf = false := by decide

theorem test_ill_formed_hKey : (Instr.hKey .sha1 65536).wf = false := by decide

theorem test_ill_formed_hUpdate : (Instr.hUpdate 65536).wf = false := by decide

/-! ### Decoding: words written out field by field, LEN MBZ ALG CTX2 CTX OPC (30_encoding R91, R95) -/

theorem test_decode_dInit :
    decode (0b0000000000000000#16 ++ 0b000#3 ++ 0b1#1 ++ 0b0000#4 ++ 0b0001#4 ++ 0b0001#4) =
      .command (.dInit 1 .sha1) := by decide

theorem test_decode_dReset :
    decode (0b0000000000000000#16 ++ 0b000#3 ++ 0b0#1 ++ 0b0000#4 ++ 0b0001#4 ++ 0b0010#4) =
      .command (.dReset 1) := by decide

theorem test_decode_dUpdate :
    decode (0b0000000000000011#16 ++ 0b000#3 ++ 0b0#1 ++ 0b0000#4 ++ 0b1001#4 ++ 0b0011#4) =
      .command (.dUpdate 9 3) := by decide

theorem test_decode_dDigest :
    decode (0b0000000000000000#16 ++ 0b000#3 ++ 0b0#1 ++ 0b0000#4 ++ 0b1111#4 ++ 0b0100#4) =
      .command (.dDigest 15) := by decide

/-- CTX is the destination, CTX2 the source. -/
theorem test_decode_dClone :
    decode (0b0000000000000000#16 ++ 0b000#3 ++ 0b0#1 ++ 0b0110#4 ++ 0b0001#4 ++ 0b0101#4) =
      .command (.dClone 1 6) := by decide

theorem test_decode_dLen :
    decode (0b0000000000000000#16 ++ 0b000#3 ++ 0b0#1 ++ 0b0000#4 ++ 0b0001#4 ++ 0b0110#4) =
      .command (.dLen 1) := by decide

theorem test_decode_hKey :
    decode (0b0000000000000100#16 ++ 0b000#3 ++ 0b1#1 ++ 0b0000#4 ++ 0b0000#4 ++ 0b0111#4) =
      .command (.hKey .sha1 4) := by decide

theorem test_decode_hReset :
    decode (0b0000000000000000#16 ++ 0b000#3 ++ 0b0#1 ++ 0b0000#4 ++ 0b0000#4 ++ 0b1000#4) =
      .command .hReset := by decide

theorem test_decode_hUpdate :
    decode (0b1000000000011100#16 ++ 0b000#3 ++ 0b0#1 ++ 0b0000#4 ++ 0b0000#4 ++ 0b1001#4) =
      .command (.hUpdate 32796) := by decide

theorem test_decode_hDigest :
    decode (0b0000000000000000#16 ++ 0b000#3 ++ 0b0#1 ++ 0b0000#4 ++ 0b0000#4 ++ 0b1010#4) =
      .command .hDigest := by decide

/-- 95_test_vectors 2.1, rows 3 to 6: OPC 0 and 0xB to 0xF name no command, whatever the other bits. -/
theorem test_decode_illegal :
    decode 0x00000000 = .illegalOpc ∧ decode 0x0000000B = .illegalOpc ∧ decode 0xFFFFFFFF = .illegalOpc ∧
      decode 0x0000E00C = .illegalOpc := by decide

/-- 95_test_vectors 2.1, rows 7 to 15: each must-be-zero field. -/
theorem test_decode_reserved :
    decode 0x00002001 = .reserved ∧ decode 0x00000101 = .reserved ∧ decode 0x00010001 = .reserved ∧
      decode 0x00001002 = .reserved ∧ decode 0x00010004 = .reserved ∧ decode 0x00001005 = .reserved ∧
      decode 0x00000018 = .reserved ∧ decode 0x0001000A = .reserved ∧ decode 0x00040117 = .reserved := by decide

/-- The host's numbering of a row's word is the command word itself. -/
theorem test_decodeTableWord : decodeTableWord 32 0x00041007 = some (.hKey .sha1 4) := by decide

/-! ### The operators and tables (00_scope R12, 41_md5 R174 to R182, 42_sha1 R204 to R213) -/

/-- R174 to R177: the examples of the four functions. -/
theorem test_md5_functions :
    md5F 0x0F0F0F0F 0x33333333 0x55555555 = 0x53535353 ∧ md5G 0x0F0F0F0F 0x33333333 0x55555555 = 0x27272727 ∧
      md5H 0x0F0F0F0F 0x33333333 0x55555555 = 0x69696969 ∧ md5I 0x0F0F0F0F 0x33333333 0x55555555 = 0x9C9C9C9C := by
  decide

/-- R182: the column `k(i)`. -/
theorem test_md5_word_column :
    (List.range 64).map (fun i => (md5Index i).val) =
      [0, 1, 2, 3, 4, 5, 6, 7, 8, 9, 10, 11, 12, 13, 14, 15] ++ [1, 6, 11, 0, 5, 10, 15, 4, 9, 14, 3, 8, 13, 2, 7, 12] ++
        [5, 8, 11, 14, 1, 4, 7, 10, 13, 0, 3, 6, 9, 12, 15, 2] ++ [0, 7, 14, 5, 12, 3, 10, 1, 8, 15, 6, 13, 4, 11, 2, 9] := by
  decide

/-- R182: the column `s(i)`, the first five rows of each round. -/
theorem test_md5_shift_column :
    [0, 1, 2, 3, 4, 16, 17, 18, 19, 20, 32, 33, 34, 35, 36, 48, 49, 50, 51, 52].map md5Shift =
      [7, 12, 17, 22, 7, 5, 9, 14, 20, 5, 4, 11, 16, 23, 4, 6, 10, 15, 21, 6] := by decide

/-- R182: entries of the column `T[i]`, one of each round and the last. -/
theorem test_md5_constants :
    md5T.length = 64 ∧ md5T.getD 0 0 = 0xD76AA478 ∧ md5T.getD 23 0 = 0xE7D3FBC8 ∧ md5T.getD 43 0 = 0x04881D05 ∧
      md5T.getD 59 0 = 0x4E0811A1 ∧ md5T.getD 63 0 = 0xEB86D391 := by decide

/-- R184: step 0 on the padded block of the empty message. -/
theorem test_md5_step0 :
    (fun u : Md5Unit => (u.a, u.b, u.c, u.d)) (md5Step (md5Load md5Iv (0x80 :: zeros 63)) 0) =
      (0x10325476, 0xA5202774, 0xEFCDAB89, 0x98BADCFE) := by decide +kernel

/-- R184: the result on that block. -/
theorem test_md5_transform :
    md5Transform md5Iv (0x80 :: zeros 63) = #v[0xD98C1DD4, 0x04B2008F, 0x980980E9, 0x7E42F8EC, 0x00000000] := by
  decide +kernel

/-- R205 to R207: the examples of the three functions; R213: the rotations. -/
theorem test_sha1_functions :
    sha1Ch 0x0F0F0F0F 0x33333333 0x55555555 = 0x53535353 ∧
      sha1Parity 0x0F0F0F0F 0x33333333 0x55555555 = 0x69696969 ∧
      sha1Maj 0x0F0F0F0F 0x33333333 0x55555555 = 0x17171717 ∧ rotl 0x80000001 1 = 0x00000003 ∧
      rotl 0x12345678 30 = 0x048D159E := by decide

/-- R204: words 16 to 19 of the schedule of the padded empty message. -/
theorem test_sha1_schedule :
    (sha1Schedule (0x80 :: zeros 63)).toList.take 20 =
      [0x80000000, 0, 0, 0, 0, 0, 0, 0, 0, 0, 0, 0, 0, 0, 0, 0] ++ [0x00000001, 0, 0, 0x00000002] := by decide +kernel

/-- R214: step 0 on the padded block of "abc". -/
theorem test_sha1_step0 :
    (fun u : Sha1Unit => (u.a, u.b, u.c, u.d, u.e))
        (sha1Step (sha1Load sha1Iv ([0x61, 0x62, 0x63, 0x80] ++ zeros 52 ++ [0, 0, 0, 0, 0, 0, 0, 0x18])) 0) =
      (0x0116FC33, 0x67452301, 0x7BF36AE2, 0x98BADCFE, 0x10325476) := by decide +kernel

/-- R214: the result on that block. -/
theorem test_sha1_transform :
    sha1Transform sha1Iv ([0x61, 0x62, 0x63, 0x80] ++ zeros 52 ++ [0, 0, 0, 0, 0, 0, 0, 0x18]) =
      #v[0xA9993E36, 0x4706816A, 0xBA3E2571, 0x7850C26C, 0x9CD0D89D] := by decide +kernel

/-- 95_test_vectors 2.2: the counter carries and wraps. -/
theorem test_incBc :
    (fun c : Context => (c.bcHi, c.bcLo)) { Context.reset with bcHi := 7, bcLo := 0xFFFFFFFF }.incBc = (8, 0) ∧
      (fun c : Context => (c.bcHi, c.bcLo))
        { Context.reset with bcHi := 0xFFFFFFFF, bcLo := 0xFFFFFFFF }.incBc = (0, 0) := by decide

/-- R127: two of the examples of the bit count. -/
theorem test_bitCount :
    (fun c : Context => (c.bitLo, c.bitHi)) { Context.reset with bcLo := 0x00800000 } = (0, 1) ∧
      (fun c : Context => (c.bitLo, c.bitHi)) { Context.reset with bcHi := 1, fi := 63 } =
        (0x000001F8, 0x00000200) := by decide

/-! ### The digest commands (40_hash_engine) -/

/-- R140: the example, and BUF is not written. -/
theorem test_dInit :
    after (.dInit 0 .md5) (holding (absorbed small 0 .sha1 [0x61]) 0x00000001 [])
        (fun t => ((t.getCtx 0).alg, (t.getCtx 0).fi, (t.getCtx 0).h, (t.getCtx 0).buf[0])) =
      some (.md5, 0, #v[0x67452301, 0xEFCDAB89, 0x98BADCFE, 0x10325476, 0x00000000], 0x61) := by decide +kernel

/-- 95_test_vectors 2.1, row 19: context 2 does not exist. -/
theorem test_dInit_badCtx :
    after (.dInit 2 .md5) (holding small 0x00000021 []) (fun t => (t.statusWord, t.finfo)) =
      some (0x00000401, 0x00000021) := by decide +kernel

/-- R141: the algorithm is kept, FI and the working words return. -/
theorem test_dReset :
    after (.dReset 0) (holding (absorbed small 0 .sha1 [0x61, 0x62, 0x63]) 0x00000002 [])
        (fun t => ((t.getCtx 0).alg, (t.getCtx 0).fi, (t.getCtx 0).h[4])) =
      some (.sha1, 0, 0xC3D2E1F0) := by decide +kernel

/-- 95_test_vectors 2.1, row 23. -/
theorem test_dReset_invalid :
    after (.dReset 1) (holding (absorbed small 0 .md5 []) 0x00000012 []) (fun t => (t.statusWord, t.finfo)) =
      some (0x00000501, 0x00000012) := by decide +kernel

/-- R142: the example. -/
theorem test_dUpdate :
    after (.dUpdate 0 1) (holding (absorbed small 0 .md5 []) 0x00010003 [0x61])
        (fun t => ((t.getCtx 0).buf[0], (t.getCtx 0).fi, (t.getCtx 0).counter, decide ((t.getCtx 0).h = md5Iv))) =
      some (0x61, 1, 0, true) := by decide +kernel

/-- R123: the example: `FI = 60`, 70 bytes: `FI` ends 2 and the counter grew by 2. -/
theorem test_dUpdate_blocks :
    after (.dUpdate 0 70) (holding (absorbed small 0 .md5 (zeros 60)) 0x00460003 (zeros 70))
        (fun t => ((t.getCtx 0).fi, (t.getCtx 0).counter)) =
      some (2, 2) := by decide +kernel

/-- 95_test_vectors, section 1: MD5("a"). -/
theorem test_dDigest_md5 :
    response (.dDigest 0) (holding (absorbed small 0 .md5 [0x61]) 0x00000004 []) =
      some ⟨.ok, [0x0C, 0xC1, 0x75, 0xB9, 0xC0, 0xF1, 0xB6, 0xA8, 0x31, 0xC3, 0x99, 0xE2, 0x69, 0x77, 0x26, 0x61]⟩ := by
  decide +kernel

/-- 95_test_vectors, section 1: SHA1("abc"). -/
theorem test_dDigest_sha1 :
    response (.dDigest 1) (holding (absorbed small 1 .sha1 [0x61, 0x62, 0x63]) 0x00000014 []) =
      some ⟨.ok, [0xA9, 0x99, 0x3E, 0x36, 0x47, 0x06, 0x81, 0x6A, 0xBA, 0x3E, 0x25, 0x71, 0x78, 0x50, 0xC2, 0x6C,
        0x9C, 0xD0, 0xD8, 0x9D]⟩ := by decide +kernel

/-- R144: destination 1 receives what context 0 holds, and CTXV its bits. -/
theorem test_dClone :
    after (.dClone 1 0) (holding (absorbed small 0 .sha1 [0x61]) 0x00000015 [])
        (fun t => (decide (t.getCtx 1 = t.getCtx 0), (t.getCtx 1).fi, t.ctxvWord)) =
      some (true, 1, 0x00030003) := by decide +kernel

/-- 95_test_vectors 2.1, row 24: the source is not valid; the destination does not matter. -/
theorem test_dClone_invalid :
    after (.dClone 0 1) (holding (absorbed small 0 .md5 []) 0x00000105 []) (fun t => (t.statusWord, t.finfo)) =
      some (0x00000501, 0x00000105) := by decide +kernel

/-- R145: the example. -/
theorem test_dLen :
    response (.dLen 1) (holding (absorbed small 1 .sha1 [0x61]) 0x00000016 []) = some ⟨.ok, [0x14]⟩ := by
  decide +kernel

/-- 95_test_vectors 2.1, row 18: F_LEN is checked before F_BAD_CTX. -/
theorem test_len_before_badCtx :
    after (.dDigest 2) (holding small 0x00000024 [0x00]) (fun t => (t.statusWord, t.finfo)) =
      some (0x00000301, 0x00000024) := by decide +kernel

/-! ### The HMAC commands (43_hmac) -/

/-- R234: the example: the pads of "Jefe". -/
theorem test_hKey :
    after (.hKey .md5 4) (holding small 0x00040007 [0x4A, 0x65, 0x66, 0x65])
        (fun t => (t.kipad.toList, t.kopad.toList, t.statusWord)) =
      some ([0x7C, 0x53, 0x50, 0x53] ++ List.replicate 60 0x36, [0x16, 0x39, 0x3A, 0x39] ++ List.replicate 60 0x5C,
        0x00000002) := by decide +kernel

/-- 95_test_vectors 2.1, row 31: the empty key is legal; R234: its pads are all 0x36 and all 0x5C. -/
theorem test_hKey_empty :
    after (.hKey .md5 0) (holding small 0x00000007 []) (fun t => (t.kipad, t.kopad)) =
      some (Vector.replicate 64 0x36, Vector.replicate 64 0x5C) := by decide +kernel

/-- R235: ACC_LEN returns to 0; the key and the bytes of ACC stay. -/
theorem test_hReset :
    after .hReset (holding (keyedWith small .md5 jefe [0x78]) 0x00000008 [])
        (fun t => (t.accLen, t.kipad[0], t.acc.read? 0, t.keyed)) =
      some (0, 0x7C, some 0x78, true) := by decide +kernel

/-- 95_test_vectors 2.1, row 29. -/
theorem test_hReset_unkeyed :
    after .hReset (holding small 0x00000008 []) (fun t => (t.statusWord, t.finfo)) =
      some (0x00000601, 0x00000008) := by decide +kernel

/-- 95_test_vectors 2.1, overflow: `5 + 4 > 8` appends nothing. -/
theorem test_hUpdate_overflow :
    after (.hUpdate 4) (holding (keyedWith small .md5 jefe [0x31, 0x32, 0x33, 0x34, 0x35]) 0x00040009
        [0x36, 0x37, 0x38, 0x39]) (fun t => (t.accLen, t.statusWord, t.finfo)) =
      some (5, 0x00000703, 0x00040009) := by decide +kernel

/-- R236: room for exactly the payload. -/
theorem test_hUpdate :
    after (.hUpdate 3) (holding (keyedWith small .md5 jefe [0x31, 0x32, 0x33, 0x34, 0x35]) 0x00030009
        [0x36, 0x37, 0x38]) (fun t => (t.accLen, t.accMessage)) =
      some (8, [0x31, 0x32, 0x33, 0x34, 0x35, 0x36, 0x37, 0x38]) := by decide +kernel

/-- 95_test_vectors, section 1: HMAC-MD5. -/
theorem test_hDigest_md5 :
    response .hDigest (holding (keyedWith State.reset .md5 jefe question) 0x0000000A []) =
      some ⟨.ok, [0x75, 0x0C, 0x78, 0x3E, 0x6A, 0xB0, 0xB5, 0x03, 0xEA, 0xA8, 0x6E, 0x31, 0x0A, 0x5D, 0xB7, 0x38]⟩ := by
  decide +kernel

/-- 95_test_vectors, section 1: HMAC-SHA1. -/
theorem test_hDigest_sha1 :
    response .hDigest (holding (keyedWith State.reset .sha1 jefe question) 0x0000000A []) =
      some ⟨.ok, [0xEF, 0xFC, 0xDF, 0x6A, 0xE5, 0xEB, 0x2F, 0xA2, 0xD2, 0x74, 0x16, 0xD5, 0xF1, 0x84, 0xDF, 0x9C,
        0x25, 0x9A, 0x7C, 0x79]⟩ := by decide +kernel

/-! ### The ports (30_encoding R90, R101; 60_exceptions; 70_reset) -/

/-- 95_test_vectors 2.1, row 6: the illegal opcode wins over MBZ and over the payload. -/
theorem test_step_illegal :
    stepped (facing small (.command ⟨0x0000E00C, [0x00]⟩)) (fun t => (t.statusWord, t.finfo, t.rsp)) =
      some (0x00000101, 0x0000E00C, [⟨.fault, []⟩]) := by decide +kernel

/-- 95_test_vectors 2.1, the faulted state: a legal command is refused and the first fault is kept. -/
theorem test_step_faulted :
    stepped (facing { absorbed small 0 .md5 [] with seq := .faulted, cause := 0x05, finfo := 0x00000014 }
        (.command ⟨0x00000004, []⟩)) (fun t => (t.statusWord, t.finfo, t.ctxvWord, t.rsp)) =
      some (0x00000501, 0x00000014, 0x00000001, [⟨.fault, []⟩]) := by decide +kernel

/-- R300: hardware reset leaves FAULTED, and CTXV, STATUS and FINFO are 0. -/
theorem test_step_reset :
    stepped (facing { absorbed small 0 .md5 [] with seq := .faulted, cause := 0x05, finfo := 0x00000014 } .reset)
        (fun t => (t.statusWord, t.finfo, t.ctxvWord, t.rsp)) =
      some (0, 0, 0, []) := by decide +kernel

/-- 95_test_vectors 2.1: CTXV after D_INIT of both contexts. -/
theorem test_step_statRead :
    stepped (facing (absorbed (absorbed small 0 .md5 []) 1 .sha1 []) (.statRead 2)) (fun t => t.stat) =
      some [0x00020003] := by decide +kernel

/-- A word placed for the next step is run by it. -/
theorem test_withFetchWord :
    stepped (State.reset.withFetchWord 32 0x00001011) (fun t => (t.getCtx 1).h[4]) = some 0xC3D2E1F0 := by
  decide +kernel

/-- R99, R100: a line of assembler with both payload forms. -/
theorem test_assemble :
    assemble "MAC MD5, \"Jefe\", \"\" ; a comment".toList =
      some [⟨0x00040007, [0x4A, 0x65, 0x66, 0x65]⟩, ⟨0x00000009, []⟩, ⟨0x0000000A, []⟩] := by decide +kernel

/-! ### Witnesses: concrete states and operands that meet the hypotheses of each statement together, at the boundary
values of its clauses -/

/-- A refused state: FAULTED by the command 0x00000014. -/
def halted : State := { absorbed small 0 .md5 [] with seq := .faulted, cause := 0x05, finfo := 0x00000014 }

theorem witness_DecodeOfEncode : (Instr.dUpdate 15 65535).wf = true ∧ (Instr.hUpdate 0).wf = true := by decide

theorem witness_EncodeOfDecode : decode 0xFFFF1007 = .command (.hKey .sha1 65535) := by decide

theorem witness_DecodeMatchesOpcodeTable :
    decode 0x00000FF5 = .command (.dClone 15 15) ∧ ((0x00000005, 0xFFFFF00F) : Word × Word) ∈ opcodeRows ∧
      (0x00000FF5 : Word) &&& 0xFFFFF00F = 0x00000005 := by decide

theorem witness_StepRunsDecodedCommand :
    (facing small (.command ⟨0x00000001, []⟩)).pending = .command ⟨0x00000001, []⟩ :: [] ∧
      (facing small (.command ⟨0x00000001, []⟩)).seq = .idle ∧ decode 0x00000001 = .command (.dInit 0 .md5) ∧
      small.pending = [] := by decide

/-- OPC 0 and 0xB are not legal, at both ends of the legal range. -/
theorem witness_IllegalOpcodeFaults :
    (facing small (.command ⟨0x0000000B, []⟩)).pending = .command ⟨0x0000000B, []⟩ :: [] ∧
      (facing small (.command ⟨0x0000000B, []⟩)).seq = .idle ∧ ¬ opcodeLegal 0x0000000B ∧ ¬ opcodeLegal 0 := by
  unfold opcodeLegal; decide

/-- OPC 1 and 0xA are legal, each with a stray bit. -/
theorem witness_ReservedFieldFaults :
    (facing small (.command ⟨0x00010001, []⟩)).pending = .command ⟨0x00010001, []⟩ :: [] ∧
      (facing small (.command ⟨0x00010001, []⟩)).seq = .idle ∧ opcodeLegal 0x00010001 ∧ strayBit 0x00010001 ∧
      opcodeLegal 0x0001000A ∧ strayBit 0x0001000A ∧
      ((0x00000001, 0xFFFFEF0F) : Word × Word) ∈ opcodeRows ∧ (0x00010001 : Word) &&& 0xF = 0x00000001 := by
  unfold opcodeLegal strayBit; decide

theorem witness_FaultedRefusesCommands :
    halted.seq = .faulted ∧ (facing halted (.command ⟨0x00000004, []⟩)).pending = .command ⟨0x00000004, []⟩ :: [] ∧
      (facing halted (.statRead 0)).pending = .statRead 0 :: [] := by decide

theorem witness_StatusReadReturnsRegister :
    (facing small (.statRead 2)).pending = .statRead 2 :: [] ∧
      (facing small (.statRead 3)).pending = .statRead 3 :: [] := by decide

theorem witness_HardwareResetLeaves :
    (facing halted .reset).pending = .reset :: [] ∧
      (facing small (.commandAbandoned ⟨0x00000001, []⟩)).pending = .commandAbandoned ⟨0x00000001, []⟩ :: [] := by
  decide

theorem witness_OneResponsePerCommand :
    (facing halted (.command ⟨0, []⟩)).pending = .command ⟨0, []⟩ :: [] ∧
      (∃ t, step (facing halted (.command ⟨0, []⟩)) = .next t) ∧ HostAct.answered (.command ⟨0, []⟩) = true ∧
      (facing small .reset).pending = .reset :: [] ∧ (∃ t, step (facing small .reset) = .next t) ∧
      HostAct.answered .reset = false :=
  ⟨rfl, ⟨_, rfl⟩, rfl, rfl, ⟨_, rfl⟩, rfl⟩

/-- A transaction whose first failing check is the payload's, before the context number's, and one that fails none. -/
theorem witness_FaultOrder :
    (facing small (.command ⟨0x00000024, [0x00]⟩)).pending = .command ⟨0x00000024, [0x00]⟩ :: [] ∧
      (facing small (.command ⟨0x00000024, [0x00]⟩)).seq = .idle ∧
      expectedPortFault (small.atPort ⟨0x00000024, [0x00]⟩ []) = some 3 ∧
      expectedPortFault (small.atPort ⟨0x00000011, []⟩ []) = none := by decide +kernel

theorem witness_PayloadLengthFaults :
    (holding small 0x00030003 [0x61, 0x62]).cmd.payload.length ≠ announced (.dUpdate 0 3) ∧
      (holding small 0x00000008 [0x61]).cmd.payload.length ≠ announced .hReset := by decide

/-- NCTX itself is the first context number that does not exist; with NCTX 16 there is none. -/
theorem witness_ContextNumberFaults :
    (2 : BitVec 4) ∈ contextsNamed (.dClone 1 2) ∧
      (holding small 0x00000215 []).cmd.payload.length = announced (.dClone 1 2) ∧
      (holding small 0x00000215 []).params.nctx ≤ (2 : BitVec 4).toNat ∧
      ({ small with params := { nctx := 16, accCap := none } } : State).params.nctx = 16 := by decide

/-- The last context that exists, not valid; a command that reads no context; a valid source. -/
theorem witness_InvalidContextFaults :
    contextRead (.dLen 1) = some 1 ∧ (holding small 0x00000016 []).cmd.payload.length = announced (.dLen 1) ∧
      (∀ j ∈ contextsNamed (.dLen 1), j.toNat < (holding small 0x00000016 []).params.nctx) ∧
      ((holding small 0x00000016 []).getCtx 1).valid = false ∧ contextRead (.dInit 0 .md5) = none ∧
      ((absorbed small 0 .md5 []).getCtx 0).valid = true := by decide +kernel

theorem witness_UnkeyedFaults :
    (holding small 0x00010009 [0x78]).cmd.payload.length = announced (.hUpdate 1) ∧
      (holding small 0x00010009 [0x78]).keyed = false ∧
      (holding small 0x0000000A []).cmd.payload.length = announced .hDigest := by decide

/-- `8 < 5 + 4`, one byte too many; and an unbounded accumulator. -/
theorem witness_AccumulatorOverflowFaults :
    (fun s : State => s.params.accCap = some 8 ∧ s.cmd.payload.length = 4 ∧ s.keyed = true ∧ 8 < s.accLen + 4)
        (holding (keyedWith small .md5 jefe (zeros 5)) 0x00040009 (zeros 4)) ∧
      State.reset.params.accCap = none := by decide

theorem witness_FaultsArePrecise :
    (facing small (.command ⟨0, []⟩)).seq = .idle ∧
      ∃ t, step (facing small (.command ⟨0, []⟩)) = .next t ∧ t.seq = .faulted :=
  ⟨rfl, _, rfl, rfl⟩

theorem witness_OnlyResetLeavesFaulted :
    (facing halted .reset).seq = .faulted ∧ (∃ t, step (facing halted .reset) = .next t) ∧
      ∃ t, step (facing halted (.command ⟨0x00000001, []⟩)) = .next t :=
  ⟨rfl, ⟨_, rfl⟩, _, rfl⟩

/-- The last context that exists. -/
theorem witness_DInitResult :
    (holding small 0x00001011 []).cmd.payload = [] ∧
      (1 : BitVec 4).toNat < (holding small 0x00001011 []).params.nctx := by decide

/-- A valid context with the largest fill index. -/
theorem witness_DResetResult :
    (fun s : State => s.cmd.payload = [] ∧ (1 : BitVec 4).toNat < s.params.nctx ∧ (s.getCtx 1).valid = true)
      (holding (absorbed small 1 .sha1 (zeros 63)) 0x00000012 []) := by decide +kernel

/-- Fill indexes 63 and 64, on the two sides of BUF's end, and an empty payload. -/
theorem witness_DUpdateResult :
    (fun s : State => s.cmd.payload.length = 1 ∧ (1 : BitVec 4).toNat < s.params.nctx ∧
      (s.getCtx 1).valid = true ∧ (s.getCtx 1).fi.toNat ≤ 63)
      (holding (absorbed small 1 .sha1 (zeros 63)) 0x00010013 [0x61]) ∧
    (fun s : State => s.cmd.payload.length = 1 ∧ (1 : BitVec 4).toNat < s.params.nctx ∧
      (s.getCtx 1).valid = true ∧ 64 ≤ (s.getCtx 1).fi.toNat)
      (holding (absorbed small 1 .sha1 (zeros 64)) 0x00010013 [0x61]) ∧
    (holding small 0x00000013 []).cmd.payload.length = 0 := by decide +kernel

/-- The payload that just does not complete the block, and the one that just does. -/
theorem witness_DUpdateWritesBuf :
    (fun s : State => (1 : BitVec 4).toNat < s.params.nctx ∧ (s.getCtx 1).valid = true ∧
      (s.getCtx 1).fi.toNat + s.cmd.payload.length < 64)
      (holding (absorbed small 1 .sha1 (zeros 62)) 0x00010013 [0x61]) ∧
    (fun s : State => (1 : BitVec 4).toNat < s.params.nctx ∧ (s.getCtx 1).valid = true ∧
      (s.getCtx 1).fi.toNat ≤ 63 ∧ 64 ≤ (s.getCtx 1).fi.toNat + s.cmd.payload.length)
      (holding (absorbed small 1 .sha1 (zeros 63)) 0x00010013 [0x61]) := by decide +kernel

/-- Fill indexes 63 and 64, on the two sides of BUF's end. -/
theorem witness_DDigestResult :
    (fun s : State => s.cmd.payload = [] ∧ (1 : BitVec 4).toNat < s.params.nctx ∧ (s.getCtx 1).valid = true ∧
      (s.getCtx 1).fi.toNat ≤ 63)
      (holding (absorbed small 1 .md5 (zeros 63)) 0x00000014 []) ∧
    (fun s : State => s.cmd.payload = [] ∧ (1 : BitVec 4).toNat < s.params.nctx ∧ (s.getCtx 1).valid = true ∧
      64 ≤ (s.getCtx 1).fi.toNat)
      (holding (absorbed small 1 .md5 (zeros 64)) 0x00000014 []) := by decide +kernel

/-- A D_DIGEST that takes a fault, and (R143, completed) one that digests. -/
theorem witness_DigestDoesNotMutate :
    (∃ t, exec (.dDigest 0) (holding small 0x00000004 []) = .next t) ∧
      ∃ t, exec (.dDigest 0) (holding (absorbed small 0 .md5 []) 0x00000004 []) = .next t := by
  refine ⟨⟨_, rfl⟩, ?_⟩
  rw [exec, execDDigest, State.withChecks_cons, if_neg (by decide +kernel), State.withChecks_cons,
    if_neg (by decide +kernel), State.withChecks_cons, if_neg (by decide +kernel), State.withChecks_nil,
    Context.indexed_of_lt _ _ (by decide +kernel)]
  exact ⟨_, rfl⟩

theorem witness_EmptyMessageDigest :
    (fun s : State => s.cmd.payload = [] ∧ (1 : BitVec 4).toNat < s.params.nctx ∧
      s.getCtx 1 = Context.reset.init .sha1)
      (holding (small.setCtx 1 (Context.reset.init .sha1)) 0x00000014 []) := by decide +kernel

/-- A destination that is not valid, and a source that is. -/
theorem witness_DCloneResult :
    (fun s : State => s.cmd.payload = [] ∧ (1 : BitVec 4).toNat < s.params.nctx ∧
      (0 : BitVec 4).toNat < s.params.nctx ∧ (s.getCtx 0).valid = true ∧ (s.getCtx 1).valid = false)
      (holding (absorbed small 0 .md5 [0x61]) 0x00000015 []) := by decide +kernel

theorem witness_DLenResult :
    (fun s : State => s.cmd.payload = [] ∧ (1 : BitVec 4).toNat < s.params.nctx ∧ (s.getCtx 1).valid = true)
      (holding (absorbed small 1 .sha1 [0x61]) 0x00000016 []) := by decide +kernel

theorem witness_DigestCommandsFrame :
    isDigestCommand (.dInit 1 .sha1) = true ∧
      (∃ t, exec (.dInit 1 .sha1) (holding small 0x00001011 []) = .next t) ∧
      contextWritten (.dInit 1 .sha1) ≠ some 0 :=
  ⟨rfl, ⟨_, rfl⟩, by decide⟩

/-- The largest fill index, which BitCount and Finalize allow. -/
theorem witness_BitCountHalves : ({ Context.reset with fi := 63 } : Context).fi.toNat ≤ 63 := by decide

/-- Fill indexes 55 and 56, on the two sides of the overflow branch, and 63. -/
theorem witness_FinalizeCompressesPaddedBlocks :
    ({ Context.reset with fi := 55 } : Context).fi.toNat ≤ 55 ∧
      56 ≤ ({ Context.reset with fi := 56 } : Context).fi.toNat ∧
      ({ Context.reset with fi := 63 } : Context).fi.toNat ≤ 63 := by decide

theorem witness_ChunkingInvariance : (State.reset.engine { Context.reset with fi := 63 }).c.fi.toNat ≤ 63 := by decide

/-- Context 0 holds a message, and D_LEN, as D_RESET, leaves IDLE. -/
theorem witness_DigestCommandsHashTheMessage :
    (absorbed small 0 .md5 [0x61]).seq = .idle ∧ ((absorbed small 0 .md5 [0x61]).getCtx 0).holds .md5 [0x61] ∧
      (∃ t, exec (.dReset 0) (absorbed small 0 .md5 [0x61]) = .next t ∧ t.seq = .idle) ∧
      ∃ t, exec (.dInit 0 .md5) small = .next t ∧ t.seq = .idle := by
  refine ⟨rfl, ?_, ⟨_, rfl, rfl⟩, _, rfl, rfl⟩
  unfold Context.holds; decide +kernel

/-- The first and last word of the block part of the schedule, the first and last expanded word, the first and last step
of each round, and an engine on a SHA-1 context. -/
theorem witness_Sha1ScheduleAndSteps :
    (0 : Nat) < 16 ∧ (15 : Nat) < 16 ∧ (16 : Nat) ≤ 16 ∧ (16 : Nat) ≤ 79 ∧ (79 : Nat) < 80 ∧
      ((0 : Nat) ≤ 19 ∧ (19 : Nat) ≤ 19) ∧ (¬ (20 : Nat) ≤ 19 ∧ (39 : Nat) ≤ 39) ∧
      (¬ (40 : Nat) ≤ 39 ∧ (59 : Nat) ≤ 59) ∧ ¬ (60 : Nat) ≤ 59 ∧
      (State.reset.engine (Context.reset.init .sha1)).c.alg = .sha1 ∧
      (State.reset.engine (Context.reset.init .sha1)).c.h = sha1Iv := by decide

/-- Keys of 64 and 65 bytes, on the two sides of the comparison. -/
theorem witness_HKeyResult :
    (holding small 0x00400007 (zeros 64)).cmd.payload.length = 64 ∧
      (holding small 0x00410007 (zeros 65)).cmd.payload.length = 65 := by decide

theorem witness_HResetResult :
    (holding (keyedWith small .md5 jefe [0x78]) 0x00000008 []).cmd.payload = [] ∧
      (holding (keyedWith small .md5 jefe [0x78]) 0x00000008 []).keyed = true := by decide

/-- Room for exactly the payload: `5 + 3 = 8`. -/
theorem witness_HUpdateResult :
    (fun s : State => s.cmd.payload.length = 3 ∧ s.keyed = true ∧
      ∀ cap, s.params.accCap = some cap → s.accLen + 3 ≤ cap)
      (holding (keyedWith small .md5 jefe (zeros 5)) 0x00030009 (zeros 3)) :=
  ⟨rfl, rfl, fun cap h => by cases h; decide⟩

/-- A full accumulator, 8 bytes of 8, and one of 9, which no run reaches. -/
theorem witness_HDigestResult :
    (fun s : State => s.cmd.payload = [] ∧ s.keyed = true ∧ ∀ cap, s.params.accCap = some cap → s.accLen ≤ cap)
        (holding (keyedWith small .sha1 jefe (zeros 8)) 0x0000000A []) ∧
      (fun s : State => s.cmd.payload = [] ∧ s.keyed = true ∧ s.params.accCap = some 8 ∧ 8 < s.accLen)
        (holding (keyedWith small .sha1 jefe (zeros 9)) 0x0000000A []) :=
  ⟨⟨rfl, rfl, fun cap h => by cases h; decide⟩, by decide⟩

/-- A core keyed for each algorithm, with a full accumulator and an empty one. -/
theorem witness_OuterPassIsTwoBlocks :
    (fun s : State => s.cmd.payload = [] ∧ s.keyed = true ∧ s.halg = .md5 ∧
        ∀ cap, s.params.accCap = some cap → s.accLen ≤ cap)
        (holding (keyedWith small .md5 jefe (zeros 8)) 0x0000000A []) ∧
      (fun s : State => s.cmd.payload = [] ∧ s.keyed = true ∧ s.halg = .sha1 ∧
        ∀ cap, s.params.accCap = some cap → s.accLen ≤ cap)
        (holding (keyedWith small .sha1 jefe []) 0x0000000A []) :=
  ⟨⟨rfl, rfl, rfl, fun cap h => by cases h; decide⟩, rfl, rfl, rfl, fun cap h => by cases h; decide⟩

theorem witness_HmacCommandsFrame :
    isDigestCommand .hReset = false ∧ (∃ t, exec .hReset (holding small 0x00000008 []) = .next t) ∧
      (∀ alg n, Instr.hReset ≠ .hKey alg n) ∧ (∀ n, Instr.hReset ≠ .hUpdate n) ∧ Instr.hReset ≠ .hDigest :=
  ⟨rfl, ⟨_, rfl⟩, by simp, by simp, by simp⟩

/-- A keyed core, and H_RESET and H_KEY that leave IDLE. -/
theorem witness_HmacCommandsComputeHmac :
    (keyedWith small .md5 jefe [0x78]).seq = .idle ∧
      (keyedWith small .md5 jefe [0x78]).keyedBy .md5 [0x4A, 0x65, 0x66, 0x65] ∧
      (∃ t, exec .hReset (keyedWith small .md5 jefe [0x78]) = .next t ∧ t.seq = .idle) ∧
      ∃ t, exec (.hKey .md5 0) small = .next t ∧ t.seq = .idle := by
  refine ⟨rfl, ?_, ⟨_, rfl, rfl⟩, _, rfl, rfl⟩
  unfold State.keyedBy; decide +kernel

theorem witness_StatusChangesOnlyByFaultOrKey : ∃ t, exec .hReset (holding small 0x00000008 []) = .next t := ⟨_, rfl⟩

/-- A VALID bit that falls, by reset, and one that rises, by D_INIT. -/
theorem witness_ValidChangesOnlyAsStated :
    ((facing (absorbed small 1 .md5 []) .reset).getCtx 1).valid = true ∧
      (∃ t, step (facing (absorbed small 1 .md5 []) .reset) = .next t ∧ (t.getCtx 1).valid = false) ∧
      ((facing small (.command ⟨0x00000011, []⟩)).getCtx 1).valid = false ∧
      ∃ t, step (facing small (.command ⟨0x00000011, []⟩)) = .next t ∧ (t.getCtx 1).valid = true :=
  ⟨by decide +kernel, ⟨_, rfl, rfl⟩, by decide +kernel, _, rfl, rfl⟩

/-- H_KEY changes KIPAD from the zeros of `State.reset`. -/
theorem witness_KeyMaterialPersists :
    ∃ t, step (facing small (.command ⟨0x00000007, []⟩)) = .next t ∧
      t.kipad ≠ (facing small (.command ⟨0x00000007, []⟩)).kipad :=
  ⟨_, rfl, by decide +kernel⟩

theorem witness_StepKeepsParameters : ∃ t, step (facing small (.command ⟨0x00000011, []⟩)) = .next t := ⟨_, rfl⟩

/-- The invariant holds of a state that is not the reset state, with a message held, and a step runs from it. -/
theorem witness_StepKeepsInv :
    (facing (absorbed small 1 .md5 (zeros 63)) (.command ⟨0x00000016, []⟩)).Inv ∧
      ∃ t, step (facing (absorbed small 1 .md5 (zeros 63)) (.command ⟨0x00000016, []⟩)) = .next t :=
  ⟨by decide +kernel, _, rfl⟩

theorem witness_StepAlwaysCompletes : (keyedWith small .sha1 jefe (zeros 8)).Inv := by decide +kernel

/-- Two states that differ in the pads of an unkeyed core, in HC and in the model's counter. -/
theorem witness_UnspecifiedStateIsNeverObserved :
    small.sameToHost
        { small with kipad := Vector.replicate 64 0xFF, hc := { Context.reset with fi := 9 }, halg := .sha1, draws := 5 } ∧
      small.kipad ≠ Vector.replicate 64 0xFF :=
  ⟨⟨rfl, rfl, rfl, rfl, rfl, rfl, rfl, fun _ => ⟨rfl, fun _ => ⟨rfl, rfl, rfl, rfl, rfl⟩⟩, rfl, rfl,
    fun h => by cases h⟩, by decide +kernel⟩

/-- A digest command against another key, and an HMAC command against other contexts. -/
theorem witness_ContextsAndHmacAreIndependent :
    isDigestCommand (.dInit 0 .md5) = true ∧ (∃ t, exec (.dInit 0 .md5) (holding small 0x00000001 []) = .next t) ∧
      (keyedWith (holding small 0x00000001 []) .md5 jefe [0x78]).ctx = (holding small 0x00000001 []).ctx ∧
      isDigestCommand .hReset = false ∧ (∃ t, exec .hReset (holding small 0x00000008 []) = .next t) ∧
      (absorbed (holding small 0x00000008 []) 0 .md5 []).accMessage = (holding small 0x00000008 []).accMessage :=
  ⟨rfl, ⟨_, rfl⟩, rfl, rfl, ⟨_, rfl⟩, rfl⟩

/-- A line that expands, and the longest key that has an expansion beside the shortest that has none. -/
theorem witness_AssembledTransactionsDecode :
    (∃ ts, (AsmLine.hash 0 .md5 [0x61]).expand = some ts ∧ (⟨0x00010003, [0x61]⟩ : Transaction) ∈ ts) ∧
      ¬ 65535 < (zeros 65535).length ∧ 65535 < (zeros 65536).length :=
  ⟨⟨_, rfl, by decide⟩, by rw [zeros_length]; decide, by rw [zeros_length]; decide⟩

theorem witness_PayloadPiecesMakeThePayload : [0x61] ∈ payloadPieces [0x61] := by decide

end Sys2Proof.Machine
end

section
/-! Proofs of the statements on the state, the invariant and the independence of its parts (10_state). -/

namespace Sys2Proof.Machine

/-! ### When a command faults, is refused, or has its effect -/

/-- R271: the checks each command makes, in their order. -/
def checksOf (s : State) : Instr → List (Bool × FaultCode)
  | .dInit k _ => [(s.badPayload 0, .len), (s.badCtx k, .badCtx)]
  | .dReset k => [(s.badPayload 0, .len), (s.badCtx k, .badCtx), (s.invalidCtx k, .ctxInvalid)]
  | .dUpdate k len => [(s.badPayload len, .len), (s.badCtx k, .badCtx), (s.invalidCtx k, .ctxInvalid)]
  | .dDigest k => [(s.badPayload 0, .len), (s.badCtx k, .badCtx), (s.invalidCtx k, .ctxInvalid)]
  | .dClone dst src =>
    [(s.badPayload 0, .len), (s.badCtx dst || s.badCtx src, .badCtx), (s.invalidCtx src, .ctxInvalid)]
  | .dLen k => [(s.badPayload 0, .len), (s.badCtx k, .badCtx), (s.invalidCtx k, .ctxInvalid)]
  | .hKey alg len => [(s.badPayload len, .len), (digestTooLong alg, .hmacDigestTooLong)]
  | .hReset => [(s.badPayload 0, .len), (s.unkeyed, .hmacUnkeyed)]
  | .hUpdate len => [(s.badPayload len, .len), (s.unkeyed, .hmacUnkeyed), (s.accFull len, .accOverflow)]
  | .hDigest => [(s.badPayload 0, .len), (s.unkeyed, .hmacUnkeyed)]

/-- R62: why a command whose checks pass is refused, if it is (log 9). -/
def refusalOf (s : State) : Instr → Option Refusal
  | .dUpdate k _ => if (s.getCtx k).fi.toNat < 64 then none else some .bufIndexOutOfRange
  | .dDigest k => if (s.getCtx k).fi.toNat < 64 then none else some .bufIndexOutOfRange
  | .hDigest => if s.accFull 0 then some .accIndexOutOfRange else none
  | .dInit _ _ | .dReset _ | .dClone _ _ | .dLen _ | .hKey _ _ | .hReset | .hUpdate _ => none

theorem firstFault_eq_none (checks : List (Bool × FaultCode)) :
    firstFault checks = none ↔ ∀ check ∈ checks, check.1 = false := by
  simp [firstFault, List.find?_eq_none]

/-- When the checks of a command that reads one context pass. -/
theorem firstFault_ctx_eq_none {s : State} {k : BitVec 4} {len : Nat} :
    firstFault [(s.badPayload len, .len), (s.badCtx k, .badCtx), (s.invalidCtx k, .ctxInvalid)] = none ↔
      s.cmd.payload.length = len ∧ k.toNat < s.params.nctx ∧ (s.getCtx k).valid = true := by
  simp [firstFault_eq_none]

/-- When the checks of H_RESET and H_DIGEST pass. -/
theorem firstFault_keyed_eq_none {s : State} :
    firstFault [(s.badPayload 0, .len), (s.unkeyed, .hmacUnkeyed)] = none ↔
      s.cmd.payload = [] ∧ s.keyed = true := by
  simp [firstFault_eq_none]

theorem State.withChecks_of_fault (s : State) {checks : List (Bool × FaultCode)} {code : FaultCode}
    (operation : Host.Outcome State Fault Refusal) (h : firstFault checks = some code) :
    s.withChecks checks operation = .next (s.takeFault code) := by
  simp only [State.withChecks, h]

theorem State.withChecks_of_pass (s : State) {checks : List (Bool × FaultCode)}
    (operation : Host.Outcome State Fault Refusal) (h : firstFault checks = none) :
    s.withChecks checks operation = operation := by
  simp only [State.withChecks, h]

/-- R270, R271: a command whose checks do not all pass takes the fault of the first that fails. -/
theorem exec_of_fault {i : Instr} {s : State} {code : FaultCode} (h : firstFault (checksOf s i) = some code) :
    exec i s = .next (s.takeFault code) := by
  cases i <;> exact s.withChecks_of_fault _ h

/-- R62: a command whose checks pass and that would leave a memory is refused. -/
theorem exec_of_refusal {i : Instr} {s : State} {r : Refusal} (h : firstFault (checksOf s i) = none)
    (hr : refusalOf s i = some r) : exec i s = .refused r := by
  cases i with
  | dUpdate k len =>
    obtain ⟨hfi, rfl⟩ : 64 ≤ (s.getCtx k).fi.toNat ∧ .bufIndexOutOfRange = r := by simpa [refusalOf] using hr
    exact (s.withChecks_of_pass _ h).trans (Context.indexed_of_ge _ _ hfi)
  | dDigest k =>
    obtain ⟨hfi, rfl⟩ : 64 ≤ (s.getCtx k).fi.toNat ∧ .bufIndexOutOfRange = r := by simpa [refusalOf] using hr
    exact (s.withChecks_of_pass _ h).trans (Context.indexed_of_ge _ _ hfi)
  | hDigest =>
    obtain ⟨hfull, rfl⟩ : s.accFull 0 = true ∧ .accIndexOutOfRange = r := by simpa [refusalOf] using hr
    exact (s.withChecks_of_pass _ h).trans (if_pos hfull)
  | dInit | dReset | dClone | dLen | hKey | hReset | hUpdate => cases hr

/-- A command that is not refused and whose checks pass has its effect. -/
theorem exec_of_pass {i : Instr} {s : State} (h : firstFault (checksOf s i) = none) (hr : refusalOf s i = none) :
    ∃ t, exec i s = .next t ∧ effect s t i := by
  have hc := (firstFault_eq_none _).mp h
  cases i with
  | dInit k alg => exact ⟨_, s.withChecks_of_pass _ h, by simpa [effect, checksOf] using hc⟩
  | dReset k => exact ⟨_, s.withChecks_of_pass _ h, by simpa [effect, checksOf] using hc⟩
  | dUpdate k len =>
    have hfi : (s.getCtx k).fi.toNat < 64 := by simpa [refusalOf] using hr
    obtain ⟨hp, hk, hv⟩ := firstFault_ctx_eq_none.mp h
    exact ⟨_, (s.withChecks_of_pass _ h).trans (Context.indexed_of_lt _ _ hfi), hp, hk, hv, hfi, _, _, rfl⟩
  | dDigest k =>
    have hfi : (s.getCtx k).fi.toNat < 64 := by simpa [refusalOf] using hr
    obtain ⟨hp, hk, hv⟩ := firstFault_ctx_eq_none.mp h
    exact ⟨_, (s.withChecks_of_pass _ h).trans (Context.indexed_of_lt _ _ hfi), List.length_eq_zero_iff.mp hp, hk, hv,
      hfi, _, _, _, rfl⟩
  | dClone dst src => exact ⟨_, s.withChecks_of_pass _ h, by simpa [effect, checksOf, and_assoc] using hc⟩
  | dLen k => exact ⟨_, s.withChecks_of_pass _ h, by simpa [effect, checksOf] using hc⟩
  | hKey alg len =>
    obtain ⟨hkey, hc', sh, md5, sha1, hscratch⟩ := s.shortKey_spec alg s.cmd.payload
    have hp : s.cmd.payload.length = len := by simpa using hc (s.badPayload len, .len) (by simp [checksOf])
    exact ⟨_, s.withChecks_of_pass _ h, hp, hc', sh, md5, sha1, by rw [State.deriveKey, hkey, hscratch]⟩
  | hReset => exact ⟨_, s.withChecks_of_pass _ h, by simpa [effect, checksOf] using hc⟩
  | hUpdate len => exact ⟨_, s.withChecks_of_pass _ h, by simpa [effect, checksOf] using hc⟩
  | hDigest =>
    have hroom : ∀ cap, s.params.accCap = some cap → s.accLen ≤ cap :=
      (s.accFull_eq_false 0).mp (by simpa [refusalOf] using hr)
    obtain ⟨hrsp, hc', sh, md5, sha1, hscratch⟩ := s.twoPasses_spec
    obtain ⟨hp, hkeyed⟩ := firstFault_keyed_eq_none.mp h
    exact ⟨_, (s.withChecks_of_pass _ h).trans (s.accIndexed_of_le _ hroom), hp, hkeyed, hroom, hc', sh, md5, sha1,
      by rw [hrsp, hscratch]⟩

/-- Two states in which a command's checks and its refusal agree: it takes the same fault in both, has its effect in
both, or is refused for the same reason in both. -/
theorem exec_lockstep {i : Instr} {s t : State} (hc : checksOf t i = checksOf s i)
    (hr : firstFault (checksOf s i) = none → refusalOf t i = refusalOf s i) :
    (∃ code, exec i s = .next (s.takeFault code) ∧ exec i t = .next (t.takeFault code)) ∨
      (∃ s' t', exec i s = .next s' ∧ exec i t = .next t' ∧ effect s s' i ∧ effect t t' i) ∨
      ∃ r, exec i s = .refused r ∧ exec i t = .refused r := by
  cases hf : firstFault (checksOf s i) with
  | some code => exact .inl ⟨code, exec_of_fault hf, exec_of_fault (hc ▸ hf)⟩
  | none =>
    cases hq : refusalOf s i with
    | some r => exact .inr (.inr ⟨r, exec_of_refusal hf hq, exec_of_refusal (hc ▸ hf) ((hr hf).trans hq)⟩)
    | none =>
      obtain ⟨s', hs, es⟩ := exec_of_pass hf hq
      obtain ⟨t', ht, et⟩ := exec_of_pass (hc ▸ hf) ((hr hf).trans hq)
      exact .inr (.inl ⟨s', t', hs, ht, es, et⟩)

end Sys2Proof.Machine
end

section
namespace Sys2Proof.Machine

/-! ### What the effect of a command changes and leaves unchanged -/

section effects
variable {s t : State} {i : Instr}

/-- R39, R146: a digest command writes the context it names, SH, the units and RSP. -/
theorem effect_of_digest (hi : isDigestCommand i = true) (h : effect s t i) :
    ∃ ctx sh md5 sha1 r, t = { s with ctx := ctx, sh := sh, md5 := md5, sha1 := sha1 }.respond r ∧
      (∀ k : BitVec 4, contextWritten i ≠ some k → t.getCtx k = s.getCtx k) ∧
      ((∀ k, i ≠ .dDigest k) → sh = s.sh) ∧
      ((∀ k n, i ≠ .dUpdate k n) → (∀ k, i ≠ .dDigest k) → md5 = s.md5 ∧ sha1 = s.sha1) := by
  have hset (u : State) (c : Context) (k : BitVec 4) (r : ByteString) (j : BitVec 4) (hj : some k ≠ some j) :
      ((u.setCtx k c).respond r).getCtx j = u.getCtx j :=
    u.getCtx_setCtx_other k j c fun e => hj (e ▸ rfl)
  cases i with
  | dInit k alg =>
    obtain ⟨-, -, rfl⟩ := h
    exact ⟨_, _, _, _, _, rfl, hset _ _ _ _, fun _ => rfl, fun _ _ => ⟨rfl, rfl⟩⟩
  | dReset k =>
    obtain ⟨-, -, -, rfl⟩ := h
    exact ⟨_, _, _, _, _, rfl, hset _ _ _ _, fun _ => rfl, fun _ _ => ⟨rfl, rfl⟩⟩
  | dUpdate k len =>
    obtain ⟨-, -, -, -, md5, sha1, rfl⟩ := h
    exact ⟨_, _, _, _, _, rfl, hset _ _ _ _, fun _ => rfl, fun hu => absurd rfl (hu k len)⟩
  | dDigest k =>
    obtain ⟨-, -, -, -, sh, md5, sha1, rfl⟩ := h
    exact ⟨_, _, _, _, _, rfl, fun _ _ => rfl, fun hd => absurd rfl (hd k), fun _ hd => absurd rfl (hd k)⟩
  | dClone dst src =>
    obtain ⟨-, -, -, -, rfl⟩ := h
    exact ⟨_, _, _, _, _, rfl, hset _ _ _ _, fun _ => rfl, fun _ _ => ⟨rfl, rfl⟩⟩
  | dLen k =>
    obtain ⟨-, -, -, rfl⟩ := h
    exact ⟨_, _, _, _, _, rfl, fun _ _ => rfl, fun _ => rfl, fun _ _ => ⟨rfl, rfl⟩⟩
  | hKey | hReset | hUpdate | hDigest => cases hi

/-- R39, R246: an HMAC command writes the HMAC core, HC, SH, the units and RSP: the pads, HALG and KEYED only if it is
H_KEY, ACC only if it is H_UPDATE, and the rest only if it is H_KEY or H_DIGEST. -/
theorem effect_of_hmac (hi : isDigestCommand i = false) (h : effect s t i) :
    ∃ hc sh md5 sha1 kipad kopad acc accLen keyed halg r,
      t = { s with
        hc := hc
        sh := sh
        md5 := md5
        sha1 := sha1
        kipad := kipad
        kopad := kopad
        acc := acc
        accLen := accLen
        keyed := keyed
        halg := halg }.respond r ∧
      ((∀ alg n, i ≠ .hKey alg n) → kipad = s.kipad ∧ kopad = s.kopad ∧ halg = s.halg ∧ keyed = s.keyed) ∧
      ((∀ n, i ≠ .hUpdate n) → acc = s.acc) ∧
      ((∀ alg n, i ≠ .hKey alg n) → i ≠ .hDigest → hc = s.hc ∧ sh = s.sh ∧ md5 = s.md5 ∧ sha1 = s.sha1) := by
  cases i with
  | dInit | dReset | dUpdate | dDigest | dClone | dLen => cases hi
  | hKey alg len =>
    obtain ⟨-, hc, sh, md5, sha1, rfl⟩ := h
    exact ⟨_, _, _, _, _, _, _, _, _, _, _, rfl, fun hk => absurd rfl (hk alg len), fun _ => rfl,
      fun hk => absurd rfl (hk alg len)⟩
  | hReset =>
    obtain ⟨-, -, rfl⟩ := h
    exact ⟨_, _, _, _, _, _, _, _, _, _, _, rfl, fun _ => ⟨rfl, rfl, rfl, rfl⟩, fun _ => rfl,
      fun _ _ => ⟨rfl, rfl, rfl, rfl⟩⟩
  | hUpdate len =>
    obtain ⟨-, -, -, rfl⟩ := h
    exact ⟨_, _, _, _, _, _, _, _, _, _, _, rfl, fun _ => ⟨rfl, rfl, rfl, rfl⟩, fun hu => absurd rfl (hu len),
      fun _ _ => ⟨rfl, rfl, rfl, rfl⟩⟩
  | hDigest =>
    obtain ⟨-, -, -, hc, sh, md5, sha1, rfl⟩ := h
    exact ⟨_, _, _, _, _, _, _, _, _, _, _, rfl, fun _ => ⟨rfl, rfl, rfl, rfl⟩, fun _ => rfl,
      fun _ hd => absurd rfl hd⟩

/-- R36, R93: a command that has its effect leaves SEQ, CAUSE and FINFO and answers OK. -/
theorem effect_status (h : effect s t i) :
    t.seq = s.seq ∧ t.cause = s.cause ∧ t.finfo = s.finfo ∧ ∃ r, t.rsp = s.rsp ++ [⟨.ok, r⟩] := by
  cases hi : isDigestCommand i with
  | true => obtain ⟨_, _, _, _, r, rfl, -⟩ := effect_of_digest hi h; exact ⟨rfl, rfl, rfl, r, rfl⟩
  | false =>
    obtain ⟨_, _, _, _, _, _, _, _, _, _, r, rfl, -⟩ := effect_of_hmac hi h
    exact ⟨rfl, rfl, rfl, r, rfl⟩

/-- R40, R90: no command changes the parameters, what is pending, or what status reads returned. -/
theorem effect_ports (h : effect s t i) :
    t.params = s.params ∧ t.pending = s.pending ∧ t.cmd = s.cmd ∧ t.stat = s.stat ∧ t.draws = s.draws := by
  cases hi : isDigestCommand i with
  | true => obtain ⟨_, _, _, _, _, rfl, -⟩ := effect_of_digest hi h; exact ⟨rfl, rfl, rfl, rfl, rfl⟩
  | false =>
    obtain ⟨_, _, _, _, _, _, _, _, _, _, _, rfl, -⟩ := effect_of_hmac hi h
    exact ⟨rfl, rfl, rfl, rfl, rfl⟩

/-- R28: only H_KEY changes the key state. -/
theorem effect_key (h : effect s t i) (hk : ∀ alg n, i ≠ .hKey alg n) :
    t.kipad = s.kipad ∧ t.kopad = s.kopad ∧ t.halg = s.halg ∧ t.keyed = s.keyed := by
  cases hi : isDigestCommand i with
  | true => obtain ⟨_, _, _, _, _, rfl, -⟩ := effect_of_digest hi h; exact ⟨rfl, rfl, rfl, rfl⟩
  | false => obtain ⟨_, _, _, _, _, _, _, _, _, _, _, rfl, hkey, -⟩ := effect_of_hmac hi h; exact hkey hk

/-- R21: a command keeps every VALID bit, or sets the one of the context that D_INIT constructs or D_CLONE writes. -/
theorem effect_valid (h : effect s t i) (k : BitVec 4) :
    (t.getCtx k).valid = (s.getCtx k).valid ∨
      (t.getCtx k).valid = true ∧ ((∃ alg, i = .dInit k alg) ∨ ∃ src, i = .dClone k src) := by
  have hkeep (u : State) (hu : u.ctx = s.ctx) (c : Context) (j : BitVec 4) (r : ByteString)
      (hc : c.valid = (s.getCtx j).valid) : (((u.setCtx j c).respond r).getCtx k).valid = (s.getCtx k).valid := by
    rw [State.getCtx_respond, State.getCtx_setCtx]
    split
    · next e => rw [e, hc]
    · simp only [State.getCtx, hu]
  cases i with
  | dInit j alg =>
    obtain ⟨-, -, rfl⟩ := h
    by_cases e : k = j
    · subst e; exact .inr ⟨by simp [Context.init], .inl ⟨alg, rfl⟩⟩
    · left; rw [State.getCtx_respond, State.getCtx_setCtx_other _ _ _ _ e]
  | dReset j =>
    obtain ⟨-, -, hv, rfl⟩ := h
    exact .inl (hkeep s rfl _ j _ hv.symm)
  | dUpdate j len =>
    obtain ⟨-, -, -, hfi, md5, sha1, rfl⟩ := h
    exact .inl (hkeep _ rfl _ j [] (Engine.update_spec _ _ hfi).1)
  | dClone dst src =>
    obtain ⟨-, -, -, hv, rfl⟩ := h
    by_cases e : k = dst
    · subst e; exact .inr ⟨by simpa using hv, .inr ⟨src, rfl⟩⟩
    · left; rw [State.getCtx_respond, State.getCtx_setCtx_other _ _ _ _ e]
  | dDigest j => obtain ⟨-, -, -, -, sh, md5, sha1, rfl⟩ := h; exact .inl rfl
  | dLen j => obtain ⟨-, -, -, rfl⟩ := h; exact .inl rfl
  | hKey | hReset | hUpdate | hDigest =>
    obtain ⟨_, _, _, _, _, _, _, _, _, _, _, rfl, -⟩ := effect_of_hmac rfl h
    exact .inl rfl

end effects

/-- Settles O34: a fault is precise, and the effect of a digest command is confined to its context, SH, the units and
RSP. -/
theorem digestCommandsFrame : Obligations.DigestCommandsFrame := by
  intro i s t hi h
  rcases exec_cases i s t h with ⟨code, rfl⟩ | he
  · exact ⟨fun _ _ => rfl, rfl, rfl, rfl, rfl, rfl, rfl, rfl, rfl, rfl, rfl, rfl, rfl, fun _ => rfl,
      fun _ _ => ⟨rfl, rfl⟩⟩
  · obtain ⟨_, _, _, _, _, rfl, hctx, hsh, hunits⟩ := effect_of_digest hi he
    exact ⟨hctx, rfl, rfl, rfl, rfl, rfl, rfl, rfl, rfl, rfl, rfl, rfl, rfl, hsh, hunits⟩

/-- Settles O48: a fault is precise, and the effect of an HMAC command is confined to the HMAC core, HC, SH, the units
and RSP. -/
theorem hmacCommandsFrame : Obligations.HmacCommandsFrame := by
  intro i s t hi h
  rcases exec_cases i s t h with ⟨code, rfl⟩ | he
  · exact ⟨rfl, rfl, rfl, rfl, rfl, rfl, rfl, fun _ => ⟨rfl, rfl, rfl, rfl⟩, fun _ _ => rfl,
      fun _ _ => ⟨rfl, rfl, rfl, rfl⟩⟩
  · obtain ⟨_, _, _, _, _, _, _, _, _, _, _, rfl, hkey, hacc, hscratch⟩ := effect_of_hmac hi he
    exact ⟨rfl, rfl, rfl, rfl, rfl, rfl, rfl, hkey, fun hu j => congrArg (Memory.read? · j) (hacc hu), hscratch⟩

/-- Settles O50: by what a command can do. -/
theorem statusChangesOnlyByFaultOrKey : Obligations.StatusChangesOnlyByFaultOrKey := by
  intro i s t h
  rcases exec_cases i s t h with ⟨code, rfl⟩ | he
  · obtain ⟨hlo, hhi⟩ := code.number_range
    exact .inl ⟨code.number, hlo, hhi, s.takeFault_faulted code⟩
  · obtain ⟨hseq, hcause, hfinfo, hrsp⟩ := effect_status he
    refine .inr ⟨hseq, hcause, hfinfo, hrsp, fun hk => ?_⟩
    obtain ⟨-, -, hhalg, hkeyed⟩ := effect_key he hk
    exact ⟨hkeyed, hhalg⟩

/-! ### What a step does to the storage -/

/-- A step leaves all storage but the ports and the status registers, or resets the block, or is a decoded command that
has its effect. -/
theorem step_storage_cases {s t : State} (h : step s = .next t) :
    (∃ pending cmd rsp stat seq cause finfo, t = { s with
        pending := pending
        cmd := cmd
        rsp := rsp
        stat := stat
        seq := seq
        cause := cause
        finfo := finfo }) ∨
      (∃ act rest, s.pending = act :: rest ∧ act.resets = true ∧
        t = ({ s with pending := rest } : State).hardwareReset) ∨
      ∃ tr rest i, s.pending = .command tr :: rest ∧ decode tr.cw = .command i ∧ effect (s.atPort tr rest) t i := by
  rcases step_cases s t h with ⟨-, rfl⟩ | ⟨tr, rest, -, -, rfl⟩ | ⟨tr, rest, i, hp, -, hd, he⟩ |
    ⟨tr, rest, -, -, -, rfl⟩ | ⟨tr, rest, -, -, -, rfl⟩ | hreset | ⟨n, rest, -, rfl⟩
  · exact .inl ⟨_, _, _, _, _, _, _, rfl⟩
  · exact .inl ⟨_, _, _, _, _, _, _, rfl⟩
  · rcases exec_cases i _ t he with ⟨code, rfl⟩ | he
    · exact .inl ⟨_, _, _, _, _, _, _, rfl⟩
    · exact .inr (.inr ⟨tr, rest, i, hp, hd, he⟩)
  · exact .inl ⟨_, _, _, _, _, _, _, rfl⟩
  · exact .inl ⟨_, _, _, _, _, _, _, rfl⟩
  · exact .inr (.inl hreset)
  · exact .inl ⟨_, _, _, _, _, _, _, rfl⟩

/-- Settles O53: by what a step can do. -/
theorem stepKeepsParameters : Obligations.StepKeepsParameters := by
  intro s t h
  rcases step_storage_cases h with ⟨_, _, _, _, _, _, _, rfl⟩ | ⟨_, _, -, -, rfl⟩ | ⟨tr, rest, i, -, -, he⟩
  · rfl
  · rfl
  · exact (effect_ports he).1

/-- Settles O51: only the effect of a command can raise a VALID bit, and only a reset can clear one. -/
theorem validChangesOnlyAsStated : Obligations.ValidChangesOnlyAsStated := by
  intro s t k h
  rcases step_storage_cases h with ⟨_, _, _, _, _, _, _, rfl⟩ | ⟨act, rest, hp, hr, rfl⟩ | ⟨tr, rest, i, hp, hd, he⟩
  · exact ⟨fun hv hn => Bool.noConfusion (hn.symm.trans hv), fun hn hv => Bool.noConfusion (hn.symm.trans hv)⟩
  · exact ⟨fun _ _ => ⟨act, rest, hp, hr⟩, fun _ hv => by simp [State.getCtx, Context.afterReset] at hv⟩
  · have hport : (s.atPort tr rest).getCtx k = s.getCtx k := rfl
    rcases effect_valid he k with hsame | ⟨hv, hi⟩
    · rw [hport] at hsame
      exact ⟨fun hv hn => Bool.noConfusion (hn.symm.trans (hsame.trans hv)),
        fun hn hv => Bool.noConfusion (hn.symm.trans (hsame.symm.trans hv))⟩
    · refine ⟨fun _ hn => Bool.noConfusion (hn.symm.trans hv), fun _ _ => ⟨tr, rest, hp, ?_⟩⟩
      rcases hi with ⟨alg, rfl⟩ | ⟨src, rfl⟩
      · exact .inl ⟨alg, hd⟩
      · exact .inr ⟨src, hd⟩

/-- Settles O52: no command but H_KEY writes the pads, and no step but a command or a reset writes storage. -/
theorem keyMaterialPersists : Obligations.KeyMaterialPersists := by
  intro s t h hne
  rcases step_storage_cases h with ⟨_, _, _, _, _, _, _, rfl⟩ | ⟨act, rest, hp, hr, -⟩ | ⟨tr, rest, i, hp, hd, he⟩
  · exact absurd hne (by simp)
  · exact .inl ⟨act, rest, hp, hr⟩
  · by_cases hk : ∃ alg len, i = .hKey alg len
    · obtain ⟨alg, len, rfl⟩ := hk
      exact .inr ⟨tr, rest, alg, len, hp, hd⟩
    · obtain ⟨hkipad, hkopad, -⟩ := effect_key he fun alg n e => hk ⟨alg, n, e⟩
      rw [hkipad, hkopad] at hne
      exact absurd hne (by simp [State.atPort])

end Sys2Proof.Machine
end

section
namespace Sys2Proof.Machine

/-! ### The invariant: contexts -/

/-- The part of the invariant that speaks of the contexts. -/
def State.CtxInv (s : State) : Prop :=
  ∀ k : BitVec 4, (s.getCtx k).Inv ∧ (s.params.nctx ≤ k.toNat → (s.getCtx k).valid = false)

theorem State.inv_iff (s : State) :
    s.Inv ↔ s.params.legal = true ∧ s.CtxInv ∧ s.AccInv ∧ s.StatusInv := by
  have hctx : s.CtxInv ↔ (∀ k : Fin 16, (s.ctx[k.val]'k.isLt).Inv) ∧
      ∀ k : Fin 16, s.params.nctx ≤ k.val → (s.ctx[k.val]'k.isLt).valid = false :=
    ⟨fun h => ⟨fun k => (h (.ofFin k)).1, fun k => (h (.ofFin k)).2⟩, fun h k => ⟨h.1 k.toFin, h.2 k.toFin⟩⟩
  rw [hctx, and_assoc]

/-- Writing a context in order at an existing number keeps the contexts in order. -/
theorem State.CtxInv.setCtx {s : State} (h : s.CtxInv) {k : BitVec 4} (hk : k.toNat < s.params.nctx) {c : Context}
    (hc : c.Inv) : (s.setCtx k c).CtxInv := by
  intro j
  rw [State.getCtx_setCtx]
  split
  · next e => exact ⟨hc, fun hj => by rw [e] at hj; exact absurd hj (by simpa using hk)⟩
  · exact h j

/-- R121, R26: `Init` leaves a context in order. -/
theorem Context.inv_init (c : Context) (alg : Alg) : (c.init alg).Inv := by
  intro _
  exact ⟨by simp [Context.init], by rintro ⟨⟩; rfl⟩

/-- R123, R24, R26: `Update` on a context in order leaves it in order. -/
theorem Engine.inv_update (e : Engine) (d : ByteString) (h : e.c.Inv) (hv : e.c.valid = true) :
    (e.update d).c.Inv := by
  obtain ⟨hfi, hh4⟩ := h hv
  obtain ⟨-, halg, hfi', -, hh, -⟩ := e.update_spec d (by omega)
  refine fun _ => ⟨by omega, fun ha => ?_⟩
  rw [halg] at ha
  simp only [hh, ha, hashBlocks_md5_h4, hh4 ha]

theorem effect_keeps_ctxInv {s t : State} {i : Instr} (hs : s.CtxInv) (h : effect s t i) : t.CtxInv := by
  cases i with
  | dInit k alg => obtain ⟨-, hk, rfl⟩ := h; exact hs.setCtx hk (Context.inv_init _ _)
  | dReset k => obtain ⟨-, hk, -, rfl⟩ := h; exact hs.setCtx hk (Context.inv_init _ _)
  | dUpdate k len =>
    obtain ⟨-, hk, hv, -, md5, sha1, rfl⟩ := h
    exact State.CtxInv.setCtx (s := { s with md5 := md5, sha1 := sha1 }) hs hk (Engine.inv_update _ _ (hs k).1 hv)
  | dClone dst src => obtain ⟨-, hk, -, -, rfl⟩ := h; exact hs.setCtx hk (hs src).1
  | dDigest k => obtain ⟨-, -, -, -, sh, md5, sha1, rfl⟩ := h; exact hs
  | dLen k => obtain ⟨-, -, -, rfl⟩ := h; exact hs
  | hKey | hReset | hUpdate | hDigest =>
    obtain ⟨_, _, _, _, _, _, _, _, _, _, _, rfl, -⟩ := effect_of_hmac rfl h
    exact hs

/-! ### The invariant: the accumulator -/

/-- R234, R235: emptying the message keeps the accumulator in order, whatever the key becomes. -/
theorem State.AccInv.clear {s t : State} (h : s.AccInv) (ha : t.acc = s.acc) (hl : t.accLen = 0) : t.AccInv := by
  refine ⟨ha ▸ h.1, by simp [hl], ?_, fun _ => hl⟩
  cases hc : t.params.accCap <;> simp [hl]

/-- R236: appending to a keyed accumulator with room keeps it in order. -/
theorem State.AccInv.appendAcc {s : State} (h : s.AccInv) (hkey : s.keyed = true) (p : ByteString)
    (hroom : ∀ cap, s.params.accCap = some cap → s.accLen + p.length ≤ cap) : (s.appendAcc p).AccInv := by
  obtain ⟨hwf, hwritten, -, -⟩ := h
  refine ⟨Memory.wf_writeBytes _ _ _ hwf, fun j hj => ?_, ?_, fun hk => by simp [hkey] at hk⟩
  · rw [State.appendAcc_acc, Memory.read?_writeBytes]
    rw [State.appendAcc_accLen] at hj
    split
    · rw [List.getElem?_eq_getElem (by omega)]; rfl
    · exact hwritten j (by omega)
  · rw [State.appendAcc_params, Option.all_eq_true]
    exact fun cap hcap => decide_eq_true (hroom cap hcap)

theorem effect_keeps_accInv {s t : State} {i : Instr} (hs : s.AccInv) (h : effect s t i) : t.AccInv := by
  cases i with
  | dInit | dReset | dUpdate | dDigest | dClone | dLen =>
    obtain ⟨_, _, _, _, _, rfl, -⟩ := effect_of_digest rfl h
    exact hs
  | hKey alg len => obtain ⟨-, hc, sh, md5, sha1, rfl⟩ := h; exact hs.clear rfl rfl
  | hReset => obtain ⟨-, -, rfl⟩ := h; exact hs.clear rfl rfl
  | hUpdate len => obtain ⟨hp, hkey, hroom, rfl⟩ := h; exact hs.appendAcc hkey _ (hp ▸ hroom)
  | hDigest => obtain ⟨-, -, -, hc, sh, md5, sha1, rfl⟩ := h; exact hs

/-! ### The invariant: the status registers -/

/-- R37, R261: the state a fault leaves has its status registers in order. -/
theorem State.statusInv_faulted (s : State) (n : BitVec 8) (hlo : 1 ≤ n.toNat) (hhi : n.toNat ≤ 8) :
    (s.faulted n).StatusInv :=
  ⟨fun h => (by cases h), fun _ => ⟨hlo, hhi⟩⟩

/-- Every step keeps the status registers in order. -/
theorem step_keeps_statusInv {s t : State} (hs : s.StatusInv) (h : step s = .next t) : t.StatusInv := by
  rcases step_cases s t h with ⟨-, rfl⟩ | ⟨tr, rest, -, -, rfl⟩ | ⟨tr, rest, i, -, -, -, he⟩ |
    ⟨tr, rest, -, -, -, rfl⟩ | ⟨tr, rest, -, -, -, rfl⟩ | ⟨act, rest, -, -, rfl⟩ | ⟨n, rest, -, rfl⟩
  · exact hs
  · exact hs
  · rcases exec_cases i _ t he with ⟨code, rfl⟩ | he
    · exact State.statusInv_faulted _ _ code.number_range.1 code.number_range.2
    · obtain ⟨hseq, hcause, hfinfo, -⟩ := effect_status he
      rw [State.StatusInv, hseq, hcause, hfinfo]
      exact hs
  · exact State.statusInv_faulted _ _ (by decide) (by decide)
  · exact State.statusInv_faulted _ _ (by decide) (by decide)
  · exact ⟨fun _ => ⟨rfl, rfl⟩, fun h => (by cases h)⟩
  · exact hs

/-! ### The invariant: every step -/

theorem State.getCtx_hardwareReset_valid (s : State) (k : BitVec 4) : (s.hardwareReset.getCtx k).valid = false := by
  simp [State.getCtx, Context.afterReset]

/-- R41: hardware reset leaves the contexts in order, none being valid. -/
theorem State.ctxInv_hardwareReset (s : State) : s.hardwareReset.CtxInv := fun k =>
  have hv := s.getCtx_hardwareReset_valid k
  ⟨fun h => Bool.noConfusion (hv.symm.trans h), fun _ => hv⟩

/-- R41: hardware reset leaves the accumulator in order. -/
theorem State.accInv_hardwareReset (s : State) : s.hardwareReset.AccInv := by
  exact ⟨rfl, fun j hj => absurd hj (Nat.not_lt_zero j), by simp, fun _ => rfl⟩

/-- Settles O55: each part of the invariant is kept by the effect of every command, by hardware reset, and trivially by
the steps that write no storage. -/
theorem stepKeepsInv : Obligations.StepKeepsInv := by
  intro s t hs h
  obtain ⟨hlegal, hctx, hacc, hstatus⟩ := s.inv_iff.mp hs
  have hstorage : t.CtxInv ∧ t.AccInv := by
    rcases step_storage_cases h with ⟨_, _, _, _, _, _, _, rfl⟩ | ⟨_, _, -, -, rfl⟩ | ⟨tr, rest, i, -, -, he⟩
    · exact ⟨hctx, hacc⟩
    · exact ⟨State.ctxInv_hardwareReset _, State.accInv_hardwareReset _⟩
    · exact ⟨effect_keeps_ctxInv (s := s.atPort tr rest) hctx he, effect_keeps_accInv (s := s.atPort tr rest) hacc he⟩
  exact t.inv_iff.mpr
    ⟨stepKeepsParameters s t h ▸ hlegal, hstorage.1, hstorage.2, step_keeps_statusInv hstatus h⟩

theorem State.getCtx_reset_valid (k : BitVec 4) : (State.reset.getCtx k).valid = false := by
  simp [State.getCtx, State.reset, Context.reset]

/-- Settles O54: no context is valid, ACC is empty and the status registers are 0. -/
theorem invAtReset : Obligations.InvAtReset := by
  have hv := State.getCtx_reset_valid
  refine State.reset.inv_iff.mpr ⟨rfl, fun k => ⟨fun h => Bool.noConfusion ((hv k).symm.trans h), fun _ => hv k⟩,
    ⟨rfl, fun j hj => absurd hj (Nat.not_lt_zero j), rfl, fun _ => rfl⟩, fun _ => ⟨rfl, rfl⟩, fun h => (by cases h)⟩

end Sys2Proof.Machine
end

section
namespace Sys2Proof.Machine

/-! ### What the host cannot tell apart: contexts -/

namespace Context.sameToHost

/-- Two contexts just constructed for one algorithm (R121). -/
theorem init (c d : Context) (alg : Alg) : (c.init alg).sameToHost (d.init alg) :=
  ⟨rfl, fun _ => ⟨rfl, rfl, rfl, rfl, by simp [Context.live, Context.init, memRead]⟩⟩

/-- R23, R123: `Update` never reads a dead byte. -/
theorem update {e f : Engine} (h : e.c.sameToHost f.c) (hv : e.c.valid = true) (hfi : e.c.fi.toNat < 64)
    (data : ByteString) : (e.update data).c.sameToHost (f.update data).c := by
  obtain ⟨hvalid, hsame⟩ := h
  obtain ⟨halg, hfieq, hcount, hh, hlive⟩ := hsame hv
  obtain ⟨ev, ealg, efi, ecount, eh, elive, -⟩ := e.update_spec data hfi
  obtain ⟨fv, falg, ffi, fcount, fh, flive, -⟩ := f.update_spec data (hfieq ▸ hfi)
  refine ⟨by rw [ev, fv, hvalid], fun _ => ⟨?_, ?_, ?_, ?_, ?_⟩⟩
  · rw [ealg, falg, halg]
  · exact BitVec.eq_of_toNat_eq (by rw [efi, ffi, hfieq])
  · rw [ecount, fcount, hcount, hfieq]
  · rw [eh, fh, halg, hh, hlive]
  · rw [elive, flive, hlive]

/-- R23, R126: `Digest` never reads a dead byte. -/
theorem digest {e f : Engine} (h : e.c.sameToHost f.c) (hv : e.c.valid = true) (hfi : e.c.fi.toNat < 64) :
    e.digest.2 = f.digest.2 := by
  obtain ⟨halg, hfieq, hcount, hh, hlive⟩ := h.2 hv
  obtain ⟨hlo, hhi⟩ := Context.counter_inj _ _ hcount
  rw [(e.digest_spec hfi).1, (f.digest_spec (hfieq ▸ hfi)).1, halg, hh, hlive]
  simp only [Context.bitLo, Context.bitHi, Context.bitTotal, hlo, hhi, hfieq]

end Context.sameToHost

/-! ### What the host cannot tell apart: states, one rule per operation -/

namespace State.sameToHost
variable {s t : State}

theorem getCtx (h : s.sameToHost t) (k : BitVec 4) : (s.getCtx k).sameToHost (t.getCtx k) := by
  obtain ⟨-, -, -, -, -, -, -, hctx, -⟩ := h
  exact hctx k

theorem seq_eq (h : s.sameToHost t) : s.seq = t.seq := by
  obtain ⟨-, -, -, -, hseq, -⟩ := h
  exact hseq

theorem finfo_eq (h : s.sameToHost t) : s.finfo = t.finfo := by
  obtain ⟨-, -, -, -, -, -, hfinfo, -⟩ := h
  exact hfinfo

theorem key_eq (h : s.sameToHost t) (hk : s.keyed = true) :
    s.halg = t.halg ∧ s.kipad = t.kipad ∧ s.kopad = t.kopad ∧ s.accMessage = t.accMessage := by
  obtain ⟨-, -, -, -, -, -, -, -, -, -, hkey⟩ := h
  exact hkey hk

theorem setCtx (h : s.sameToHost t) (k : BitVec 4) {c d : Context} (hc : c.sameToHost d) :
    (s.setCtx k c).sameToHost (t.setCtx k d) := by
  obtain ⟨hparams, hpending, hrsp, hstat, hseq, hcause, hfinfo, hctx, hcore⟩ := h
  refine ⟨hparams, hpending, hrsp, hstat, hseq, hcause, hfinfo, fun j => ?_, hcore⟩
  rw [State.getCtx_setCtx, State.getCtx_setCtx]
  split
  · exact hc
  · exact hctx j

theorem respond (h : s.sameToHost t) (r : ByteString) : (s.respond r).sameToHost (t.respond r) := by
  obtain ⟨hparams, hpending, hrsp, hrest⟩ := h
  exact ⟨hparams, hpending, congrArg (· ++ _) hrsp, hrest⟩

theorem respondFault (h : s.sameToHost t) : s.respondFault.sameToHost t.respondFault := by
  obtain ⟨hparams, hpending, hrsp, hrest⟩ := h
  exact ⟨hparams, hpending, congrArg (· ++ _) hrsp, hrest⟩

theorem faulted (h : s.sameToHost t) (hcmd : t.cmd = s.cmd) (n : BitVec 8) :
    (s.faulted n).sameToHost (t.faulted n) := by
  obtain ⟨hparams, hpending, hrsp, hstat, -, -, -, hrest⟩ := h
  exact ⟨hparams, hpending, congrArg (· ++ _) hrsp, hstat, rfl, rfl, congrArg Transaction.cw hcmd.symm, hrest⟩

theorem takeFault (h : s.sameToHost t) (hcmd : t.cmd = s.cmd) (code : FaultCode) :
    (s.takeFault code).sameToHost (t.takeFault code) :=
  h.faulted hcmd code.number

/-- R30 to R33: HC, SH and the units are never observed. -/
theorem scratch (h : s.sameToHost t) (hc hc' sh sh' : Context) (md5 md5' : Md5Unit) (sha1 sha1' : Sha1Unit) :
    ({ s with hc := hc, sh := sh, md5 := md5, sha1 := sha1 } : State).sameToHost
      { t with hc := hc', sh := sh', md5 := md5', sha1 := sha1' } := h

/-- R29, R235: once ACC_LEN is 0 every byte of ACC is dead. -/
theorem clearMessage (h : s.sameToHost t) :
    ({ s with accLen := 0 } : State).sameToHost { t with accLen := 0 } := by
  obtain ⟨hparams, hpending, hrsp, hstat, hseq, hcause, hfinfo, hctx, hkeyed, -, hkey⟩ := h
  refine ⟨hparams, hpending, hrsp, hstat, hseq, hcause, hfinfo, hctx, hkeyed, rfl, fun hk => ?_⟩
  obtain ⟨hhalg, hkipad, hkopad, -⟩ := hkey hk
  exact ⟨hhalg, hkipad, hkopad, rfl⟩

/-- R234: a new key replaces whatever the key state was. -/
theorem newKey (h : s.sameToHost t) (kipad kopad : Vector Byte 64) (alg : Alg) :
    ({ s with kipad := kipad, kopad := kopad, halg := alg, accLen := 0, keyed := true } : State).sameToHost
      { t with kipad := kipad, kopad := kopad, halg := alg, accLen := 0, keyed := true } := by
  obtain ⟨hparams, hpending, hrsp, hstat, hseq, hcause, hfinfo, hctx, -⟩ := h
  exact ⟨hparams, hpending, hrsp, hstat, hseq, hcause, hfinfo, hctx, rfl, rfl, fun _ => ⟨rfl, rfl, rfl, rfl⟩⟩

theorem appendAcc (h : s.sameToHost t) (p : ByteString) : (s.appendAcc p).sameToHost (t.appendAcc p) := by
  obtain ⟨hparams, hpending, hrsp, hstat, hseq, hcause, hfinfo, hctx, hkeyed, hlen, hkey⟩ := h
  refine ⟨hparams, hpending, hrsp, hstat, hseq, hcause, hfinfo, hctx, hkeyed, congrArg (· + p.length) hlen,
    fun hk => ?_⟩
  obtain ⟨hhalg, hkipad, hkopad, hmessage⟩ := hkey hk
  exact ⟨hhalg, hkipad, hkopad, by rw [State.accMessage_appendAcc, State.accMessage_appendAcc, hmessage]⟩

theorem withPending (h : s.sameToHost t) (rest : List HostAct) :
    ({ s with pending := rest } : State).sameToHost { t with pending := rest } := by
  obtain ⟨hparams, -, hrest⟩ := h
  exact ⟨hparams, rfl, hrest⟩

/-- R41, R302: after a hardware reset nothing of the old contents is observed. -/
theorem hardwareReset (h : s.sameToHost t) : s.hardwareReset.sameToHost t.hardwareReset := by
  obtain ⟨hparams, hpending, hrsp, hstat, -⟩ := h
  refine ⟨hparams, hpending, hrsp, hstat, rfl, rfl, rfl, fun k => ?_, rfl, rfl, fun hk => (by cases hk)⟩
  have hs := s.getCtx_hardwareReset_valid k
  exact ⟨hs.trans (t.getCtx_hardwareReset_valid k).symm, fun hv => Bool.noConfusion (hs.symm.trans hv)⟩

/-! ### What the host cannot tell apart: status reads -/

theorem statusWord (h : s.sameToHost t) : s.statusWord = t.statusWord := by
  obtain ⟨-, -, -, -, hseq, hcause, -, -, hkeyed, -, hkey⟩ := h
  have hhalg : s.halgBit = t.halgBit := by
    cases hk : s.keyed with
    | false => simp [State.halgBit, hk, ← hkeyed]
    | true => simp [State.halgBit, ← hkeyed, (hkey hk).1]
  simp only [State.statusWord, State.faultBit, hhalg, hseq, hcause, hkeyed]

/-- A context that is not valid shows neither VALID nor ALG in CTXV (R37). -/
theorem ctxvWord (h : s.sameToHost t) : s.ctxvWord = t.ctxvWord := by
  have hparams : s.params = t.params := h.1
  have hvalid (k : Fin 16) : (s.ctx[k.val]'k.isLt).valid = (t.ctx[k.val]'k.isLt).valid := (h.getCtx (.ofFin k)).1
  have hv : s.validBit = t.validBit := funext fun k => by simp only [State.validBit, hparams, hvalid]
  have ha : s.algFlag = t.algFlag := funext fun k => by
    cases hk : (s.ctx[k.val]'k.isLt).valid with
    | false =>
      have hk' := (hvalid k).symm.trans hk
      simp [State.algFlag, State.validBit, hk, hk']
    | true =>
      have halg : (s.ctx[k.val]'k.isLt).alg = (t.ctx[k.val]'k.isLt).alg := ((h.getCtx (.ofFin k)).2 hk).1
      simp only [State.algFlag, hv, halg]
  rw [State.ctxvWord, State.ctxvWord, hv, ha]

theorem statRead (h : s.sameToHost t) (n : Nat) : s.statRead n = t.statRead n := by
  unfold State.statRead
  split
  · exact h.statusWord
  · exact h.finfo_eq
  · exact h.ctxvWord
  · rfl

theorem readStatus (h : s.sameToHost t) (n : Nat) : (s.readStatus n).sameToHost (t.readStatus n) := by
  have hread := h.statRead n
  obtain ⟨hparams, hpending, hrsp, hstat, hrest⟩ := h
  exact ⟨hparams, hpending, hrsp, by rw [State.readStatus_stat, State.readStatus_stat, hstat, hread], hrest⟩

/-! ### What the host cannot tell apart: commands -/

theorem checksOf_eq (h : s.sameToHost t) (hcmd : t.cmd = s.cmd) (i : Instr) : checksOf t i = checksOf s i := by
  obtain ⟨hparams, -, -, -, -, -, -, hctx, hkeyed, hlen, -⟩ := h
  cases i <;> simp only [checksOf, State.badPayload, State.badCtx, State.invalidCtx, State.unkeyed, State.accFull,
    hcmd, hparams, hkeyed, hlen, (hctx _).1]

theorem refusalOf_eq (h : s.sameToHost t) (i : Instr) (hpass : firstFault (checksOf s i) = none) :
    refusalOf t i = refusalOf s i := by
  have hfi (k : BitVec 4) (hk : (s.invalidCtx k, .ctxInvalid) ∈ checksOf s i) :
      (t.getCtx k).fi = (s.getCtx k).fi := by
    have hv := (s.invalidCtx_eq_false k).mp ((firstFault_eq_none _).mp hpass _ hk)
    exact ((h.getCtx k).2 hv).2.1.symm
  cases i with
  | dUpdate k len => rw [refusalOf, hfi k (by simp [checksOf]), refusalOf]
  | dDigest k => rw [refusalOf, hfi k (by simp [checksOf]), refusalOf]
  | hDigest =>
    have hfull : t.accFull 0 = s.accFull 0 := by
      obtain ⟨hparams, -, -, -, -, -, -, -, -, hlen, -⟩ := h
      simp only [State.accFull, hparams, hlen]
    rw [refusalOf, hfull, refusalOf]
  | dInit | dReset | dClone | dLen | hKey | hReset | hUpdate => rfl

/-- The effect of a command on two states the host cannot tell apart. -/
theorem effect (h : s.sameToHost t) (hcmd : t.cmd = s.cmd) {i : Instr} {s' t' : State} (hs : effect s s' i)
    (ht : effect t t' i) : s'.sameToHost t' := by
  cases i with
  | dInit k alg =>
    obtain ⟨-, -, rfl⟩ := hs; obtain ⟨-, -, rfl⟩ := ht
    exact (h.setCtx k (.init _ _ alg)).respond _
  | dReset k =>
    obtain ⟨-, -, hv, rfl⟩ := hs; obtain ⟨-, -, -, rfl⟩ := ht
    rw [((h.getCtx k).2 hv).1]
    exact (h.setCtx k (.init _ _ _)).respond _
  | dUpdate k len =>
    obtain ⟨-, -, hv, hfi, md5, sha1, rfl⟩ := hs; obtain ⟨-, -, -, -, md5', sha1', rfl⟩ := ht
    rw [hcmd]
    exact ((h.scratch s.hc t.hc s.sh t.sh md5 md5' sha1 sha1').setCtx k (.update (h.getCtx k) hv hfi _)).respond _
  | dDigest k =>
    obtain ⟨-, -, hv, hfi, sh, md5, sha1, rfl⟩ := hs; obtain ⟨-, -, -, -, sh', md5', sha1', rfl⟩ := ht
    rw [Context.sameToHost.digest (e := s.engine (s.getCtx k)) (f := t.engine (t.getCtx k)) (h.getCtx k) hv hfi]
    exact (h.scratch s.hc t.hc sh sh' md5 md5' sha1 sha1').respond _
  | dClone dst src =>
    obtain ⟨-, -, -, -, rfl⟩ := hs; obtain ⟨-, -, -, -, rfl⟩ := ht
    exact (h.setCtx dst (h.getCtx src)).respond _
  | dLen k =>
    obtain ⟨-, -, hv, rfl⟩ := hs; obtain ⟨-, -, -, rfl⟩ := ht
    rw [((h.getCtx k).2 hv).1]
    exact h.respond _
  | hKey alg len =>
    obtain ⟨-, hc, sh, md5, sha1, rfl⟩ := hs; obtain ⟨-, hc', sh', md5', sha1', rfl⟩ := ht
    rw [hcmd]
    exact ((h.scratch hc hc' sh sh' md5 md5' sha1 sha1').newKey _ _ alg).respond _
  | hReset =>
    obtain ⟨-, -, rfl⟩ := hs; obtain ⟨-, -, rfl⟩ := ht
    exact h.clearMessage.respond _
  | hUpdate len =>
    obtain ⟨-, -, -, rfl⟩ := hs; obtain ⟨-, -, -, rfl⟩ := ht
    rw [hcmd]
    exact (h.appendAcc _).respond _
  | hDigest =>
    obtain ⟨-, hkeyed, -, hc, sh, md5, sha1, rfl⟩ := hs; obtain ⟨-, -, -, hc', sh', md5', sha1', rfl⟩ := ht
    obtain ⟨hhalg, hkipad, hkopad, hmessage⟩ := h.key_eq hkeyed
    have hmac : messageDigest s.halg (s.kopad.toList ++ messageDigest s.halg (s.kipad.toList ++ s.accMessage)) =
        messageDigest t.halg (t.kopad.toList ++ messageDigest t.halg (t.kipad.toList ++ t.accMessage)) := by
      rw [hhalg, hkipad, hkopad, hmessage]
    rw [hmac]
    exact (h.scratch hc hc' sh sh' md5 md5' sha1 sha1').respond _

end State.sameToHost

/-- Two outcomes the host cannot tell apart: next states it cannot tell apart, or one refusal. -/
def sameOutcome (o p : Host.Outcome State Fault Refusal) : Prop :=
  (∃ s' t', o = .next s' ∧ p = .next t' ∧ s'.sameToHost t') ∨ ∃ r, o = .refused r ∧ p = .refused r

theorem State.sameToHost.sameOutcome {s t : State} (h : s.sameToHost t) : sameOutcome (.next s) (.next t) :=
  .inl ⟨s, t, rfl, rfl, h⟩

/-- A command with one transaction at CMD of two states the host cannot tell apart. -/
theorem exec_sameOutcome {s t : State} (h : s.sameToHost t) (hcmd : t.cmd = s.cmd) (i : Instr) :
    sameOutcome (exec i s) (exec i t) := by
  rcases exec_lockstep (h.checksOf_eq hcmd i) (h.refusalOf_eq i) with ⟨code, hs, ht⟩ | ⟨s', t', hs, ht, es, et⟩ |
    ⟨r, hs, ht⟩
  · rw [hs, ht]; exact (h.takeFault hcmd code).sameOutcome
  · rw [hs, ht]; exact (h.effect hcmd es et).sameOutcome
  · exact .inr ⟨r, hs, ht⟩

/-- R97: the transaction at CMD of two states the host cannot tell apart, decoded and run. -/
theorem runCommand_sameOutcome {s t : State} (h : s.sameToHost t) (hcmd : t.cmd = s.cmd) :
    sameOutcome s.runCommand t.runCommand := by
  unfold State.runCommand
  rw [hcmd]
  cases decode s.cmd.cw with
  | command i => exact exec_sameOutcome h hcmd i
  | illegalOpc => exact (h.takeFault hcmd .illegalOpc).sameOutcome
  | reserved => exact (h.takeFault hcmd .reserved).sameOutcome

theorem State.present_of_idle {s : State} (h : s.seq = .idle) (tr : Transaction) :
    s.present tr = ({ s with cmd := tr } : State).runCommand := by
  unfold State.present
  split
  · rfl
  · next hq => cases h.symm.trans hq

theorem State.present_of_faulted {s : State} (h : s.seq = .faulted) (tr : Transaction) :
    s.present tr = .next s.respondFault := by
  unfold State.present
  split
  · next hq => cases h.symm.trans hq
  · rfl

/-- A transaction presented to two states the host cannot tell apart. -/
theorem present_sameOutcome {s t : State} (h : s.sameToHost t) (tr : Transaction) :
    sameOutcome (s.present tr) (t.present tr) := by
  cases hs : s.seq with
  | idle =>
    rw [State.present_of_idle hs, State.present_of_idle (h.seq_eq ▸ hs)]
    exact runCommand_sameOutcome (s := { s with cmd := tr }) (t := { t with cmd := tr }) h rfl
  | faulted =>
    rw [State.present_of_faulted hs, State.present_of_faulted (h.seq_eq ▸ hs)]
    exact h.respondFault.sameOutcome

/-- Settles O57: each act of the host, on two states that it cannot tell apart. -/
theorem unspecifiedStateIsNeverObserved : Obligations.UnspecifiedStateIsNeverObserved := by
  intro s t h
  have hpending : s.pending = t.pending := h.2.1
  change sameOutcome (step s) (step t)
  unfold step State.takeAct
  rw [← hpending]
  cases s.pending with
  | nil => exact h.sameOutcome
  | cons act rest =>
    have hrest := h.withPending rest
    cases act with
    | command tr => exact present_sameOutcome hrest tr
    | commandAbandoned tr => exact hrest.hardwareReset.sameOutcome
    | reset => exact hrest.hardwareReset.sameOutcome
    | statRead n => exact (hrest.readStatus n).sameOutcome

end Sys2Proof.Machine
end

section
namespace Sys2Proof.Machine

/-! ### The contexts and the HMAC core do not learn of each other -/

/-- R123: the context that `Update` leaves does not depend on what the units held. -/
theorem Engine.absorb_c_congr {e f : Engine} (h : e.c = f.c) (block : ByteString) :
    (e.absorb block).c = (f.absorb block).c := by
  simp only [Engine.absorb, Engine.transform_c, h]

theorem Engine.topUp_congr {e f : Engine} (h : e.c = f.c) (d : ByteString) :
    (e.topUp d).1.c = (f.topUp d).1.c ∧ (e.topUp d).2 = (f.topUp d).2 := by
  have hbuf (buf : Vector Byte 64) : (e.withBuf buf).c = (f.withBuf buf).c := by simp only [Engine.withBuf, h]
  have habsorb (buf : Vector Byte 64) (block : ByteString) := Engine.absorb_c_congr (hbuf buf) block
  simp only [Engine.topUp, h]
  split_ifs
  · simp only [Engine.withBuf_buf, habsorb, and_self]
  · simp only [hbuf, and_self]
  · exact ⟨h, rfl⟩

theorem Engine.directBlocks_congr (n : Nat) {e f : Engine} (h : e.c = f.c) (d : ByteString) :
    (Engine.directBlocks n e d).1.c = (Engine.directBlocks n f d).1.c ∧
      (Engine.directBlocks n e d).2 = (Engine.directBlocks n f d).2 := by
  induction n generalizing e f d with
  | zero => exact ⟨h, rfl⟩
  | succ n ih => exact ih (Engine.absorb_c_congr h _) _

theorem Engine.tail_c_congr {e f : Engine} (h : e.c = f.c) (d : ByteString) : (e.tail d).c = (f.tail d).c := by
  unfold Engine.tail
  split
  · simp only [h]
  · exact h

theorem Engine.update_c_congr {e f : Engine} (h : e.c = f.c) (d : ByteString) : (e.update d).c = (f.update d).c := by
  obtain ⟨htop, hrest⟩ := Engine.topUp_congr h d
  simp only [Engine.update, hrest]
  obtain ⟨hblocks, htail⟩ := Engine.directBlocks_congr ((f.topUp d).2.length / 64) htop (f.topUp d).2
  rw [htail]
  exact Engine.tail_c_congr hblocks _

/-- R39, R146: the checks of a digest command do not read the HMAC core. -/
theorem checksOf_congr_digest {i : Instr} (hi : isDigestCommand i = true) {s t : State} (hparams : t.params = s.params)
    (hcmd : t.cmd = s.cmd) (hctx : t.ctx = s.ctx) : checksOf t i = checksOf s i := by
  cases i with
  | dInit | dReset | dUpdate | dDigest | dClone | dLen =>
    simp only [checksOf, State.badPayload, State.badCtx, State.invalidCtx, State.getCtx, hparams, hcmd, hctx]
  | hKey | hReset | hUpdate | hDigest => cases hi

theorem refusalOf_congr_digest {i : Instr} (hi : isDigestCommand i = true) {s t : State} (hctx : t.ctx = s.ctx) :
    refusalOf t i = refusalOf s i := by
  have hget (k : BitVec 4) : t.getCtx k = s.getCtx k := by simp only [State.getCtx, hctx]
  cases i with
  | dUpdate k len => rw [refusalOf, hget, refusalOf]
  | dDigest k => rw [refusalOf, hget, refusalOf]
  | dInit | dReset | dClone | dLen => rfl
  | hKey | hReset | hUpdate | hDigest => cases hi

/-- R39, R246: the checks of an HMAC command do not read the contexts. -/
theorem checksOf_congr_hmac {i : Instr} (hi : isDigestCommand i = false) {s t : State} (hparams : t.params = s.params)
    (hcmd : t.cmd = s.cmd) (hkeyed : t.keyed = s.keyed) (hlen : t.accLen = s.accLen) :
    checksOf t i = checksOf s i := by
  cases i with
  | hKey | hReset | hUpdate | hDigest =>
    simp only [checksOf, State.badPayload, State.unkeyed, State.accFull, hparams, hcmd, hkeyed, hlen]
  | dInit | dReset | dUpdate | dDigest | dClone | dLen => cases hi

theorem refusalOf_congr_hmac {i : Instr} (hi : isDigestCommand i = false) {s t : State} (hparams : t.params = s.params)
    (hlen : t.accLen = s.accLen) : refusalOf t i = refusalOf s i := by
  have hfull : t.accFull 0 = s.accFull 0 := by simp only [State.accFull, hparams, hlen]
  cases i with
  | hKey | hReset | hUpdate | hDigest => simp only [refusalOf, hfull]
  | dInit | dReset | dUpdate | dDigest | dClone | dLen => cases hi

/-- R39, R146: what a digest command answers and leaves in the contexts depends on the contexts alone. -/
theorem effect_congr_digest {i : Instr} (hi : isDigestCommand i = true) {s t s' t' : State} (hcmd : t.cmd = s.cmd)
    (hrsp : t.rsp = s.rsp) (hctx : t.ctx = s.ctx) (hs : effect s s' i) (ht : effect t t' i) :
    t'.rsp = s'.rsp ∧ t'.ctx = s'.ctx := by
  have hget (k : BitVec 4) : t.getCtx k = s.getCtx k := by simp only [State.getCtx, hctx]
  cases i with
  | dInit k alg =>
    obtain ⟨-, -, rfl⟩ := hs; obtain ⟨-, -, rfl⟩ := ht
    simp [hrsp, hctx, hget]
  | dReset k =>
    obtain ⟨-, -, -, rfl⟩ := hs; obtain ⟨-, -, -, rfl⟩ := ht
    simp [hrsp, hctx, hget]
  | dUpdate k len =>
    obtain ⟨-, -, -, -, _, _, rfl⟩ := hs; obtain ⟨-, -, -, -, _, _, rfl⟩ := ht
    have hupdate := Engine.update_c_congr (e := t.engine (t.getCtx k)) (f := s.engine (s.getCtx k)) (hget k)
      s.cmd.payload
    simp [hrsp, hctx, hcmd, hupdate]
  | dDigest k =>
    obtain ⟨-, -, -, hfi, _, _, _, rfl⟩ := hs; obtain ⟨-, -, -, hfi', _, _, _, rfl⟩ := ht
    have hdigest : (t.engine (t.getCtx k)).digest.2 = (s.engine (s.getCtx k)).digest.2 := by
      rw [((t.engine (t.getCtx k)).digest_spec hfi').1, ((s.engine (s.getCtx k)).digest_spec hfi).1]
      simp only [State.engine, hget]
    simp [hrsp, hctx, hdigest]
  | dClone dst src =>
    obtain ⟨-, -, -, -, rfl⟩ := hs; obtain ⟨-, -, -, -, rfl⟩ := ht
    simp [hrsp, hctx, hget]
  | dLen k =>
    obtain ⟨-, -, -, rfl⟩ := hs; obtain ⟨-, -, -, rfl⟩ := ht
    simp [hrsp, hctx, hget]
  | hKey | hReset | hUpdate | hDigest => cases hi

/-- Two states with the same responses given, the same key and the same message. -/
def sameKeyAndMessage (s t : State) : Prop :=
  t.rsp = s.rsp ∧ t.keyed = s.keyed ∧ t.halg = s.halg ∧ t.kipad = s.kipad ∧ t.kopad = s.kopad ∧
    t.accLen = s.accLen ∧ t.accMessage = s.accMessage

/-- R39, R246: what an HMAC command answers and leaves of the key and the message depends on these alone. -/
theorem effect_congr_hmac {i : Instr} (hi : isDigestCommand i = false) {s t s' t' : State} (hcmd : t.cmd = s.cmd)
    (h : sameKeyAndMessage s t) (hs : effect s s' i) (ht : effect t t' i) : sameKeyAndMessage s' t' := by
  obtain ⟨hrsp, hkeyed, hhalg, hkipad, hkopad, hlen, hmessage⟩ := h
  cases i with
  | dInit | dReset | dUpdate | dDigest | dClone | dLen => cases hi
  | hKey alg len =>
    obtain ⟨-, _, _, _, _, rfl⟩ := hs; obtain ⟨-, _, _, _, _, rfl⟩ := ht
    exact ⟨congrArg (· ++ _) hrsp, rfl, rfl, by rw [hcmd]; rfl, by rw [hcmd]; rfl, rfl, rfl⟩
  | hReset =>
    obtain ⟨-, -, rfl⟩ := hs; obtain ⟨-, -, rfl⟩ := ht
    exact ⟨congrArg (· ++ _) hrsp, hkeyed, hhalg, hkipad, hkopad, rfl, rfl⟩
  | hUpdate len =>
    obtain ⟨-, -, -, rfl⟩ := hs; obtain ⟨-, -, -, rfl⟩ := ht
    have happend : (t.appendAcc t.cmd.payload).accMessage = (s.appendAcc s.cmd.payload).accMessage := by
      rw [State.accMessage_appendAcc, State.accMessage_appendAcc, hmessage, hcmd]
    exact ⟨congrArg (· ++ _) hrsp, hkeyed, hhalg, hkipad, hkopad, by simp [hlen, hcmd], happend⟩
  | hDigest =>
    obtain ⟨-, -, -, _, _, _, _, rfl⟩ := hs; obtain ⟨-, -, -, _, _, _, _, rfl⟩ := ht
    refine ⟨?_, hkeyed, hhalg, hkipad, hkopad, hlen, hmessage⟩
    simp only [State.respond_rsp, hrsp, hhalg, hkipad, hkopad, hmessage]

/-- Settles O58: on either side the checks, the refusal and the effect agree in the two states. -/
theorem contextsAndHmacAreIndependent : Obligations.ContextsAndHmacAreIndependent := by
  intro i s t s' h hparams hcmd hrsp
  constructor
  · intro hi hctx
    rcases exec_lockstep (checksOf_congr_digest hi hparams hcmd hctx) fun _ => refusalOf_congr_digest hi hctx with
      ⟨code, hs, ht⟩ | ⟨s'', t', hs, ht, es, et⟩ | ⟨r, hs, -⟩ <;> cases hs.symm.trans h
    · exact ⟨_, ht, congrArg (· ++ _) hrsp, hctx⟩
    · exact ⟨t', ht, effect_congr_digest hi hcmd hrsp hctx es et⟩
  · intro hi hkeyed hhalg hkipad hkopad hlen hmessage
    rcases exec_lockstep (checksOf_congr_hmac hi hparams hcmd hkeyed hlen) fun _ =>
      refusalOf_congr_hmac hi hparams hlen with
      ⟨code, hs, ht⟩ | ⟨s'', t', hs, ht, es, et⟩ | ⟨r, hs, -⟩ <;> cases hs.symm.trans h
    · exact ⟨_, ht, congrArg (· ++ _) hrsp, hkeyed, hhalg, hkipad, hkopad, hlen, hmessage⟩
    · exact ⟨t', ht, effect_congr_hmac hi hcmd ⟨hrsp, hkeyed, hhalg, hkipad, hkopad, hlen, hmessage⟩ es et⟩

end Sys2Proof.Machine
end

section
namespace Sys2Proof.Machine

/-! ### One act of the host, and the status registers -/

/-- Settles O6: the pending transaction goes to the port, and its word is decoded there. -/
theorem stepRunsDecodedCommand : Obligations.StepRunsDecodedCommand := by
  refine ⟨fun s tr rest i hp hseq hd => ?_, fun s hp => ?_⟩
  · have htake : step s = ({ s with pending := rest } : State).present tr := by
      simp only [step, State.takeAct, hp, State.carryOut]
    have hport := State.present_of_idle (s := { s with pending := rest }) hseq tr
    rw [htake, hport, State.runCommand, hd]
  · simp only [step, State.takeAct, hp]

/-- R37: STATUS from bit 0 up: FAULT, KEYED, HALG, five reserved bits, CAUSE, sixteen reserved bits. -/
theorem State.statusWord_getLsbD (s : State) (j : Nat) :
    s.statusWord.getLsbD j =
      if j = 0 then s.faultBit.getLsbD 0
      else if j = 1 then s.keyed
      else if j = 2 then s.halgBit.getLsbD 0
      else if j < 8 then false
      else s.cause.getLsbD (j - 8) := by
  unfold State.statusWord
  iterate 5 rw [BitVec.getLsbD_append]
  grind

/-- Settles O11: bit by bit, from the concatenation that makes up the word. -/
theorem statusWordLayout : Obligations.StatusWordLayout := by
  intro s
  refine ⟨?_, ?_, ?_, BitVec.eq_of_getLsbD_eq fun j hj => ?_, BitVec.eq_of_getLsbD_eq fun j hj => ?_,
    BitVec.eq_of_getLsbD_eq fun j hj => ?_⟩
  · rw [State.statusWord_getLsbD]
    cases h : s.seq <;> simp [State.faultBit, h]
  · rw [State.statusWord_getLsbD]; rfl
  · rw [State.statusWord_getLsbD]
    cases hk : s.keyed <;> cases ha : s.halg <;> simp [State.halgBit, algBit, hk, ha]
  · rw [BitVec.getLsbD_extractLsb', State.statusWord_getLsbD]; grind
  · rw [BitVec.getLsbD_extractLsb', State.statusWord_getLsbD]; grind
  · rw [BitVec.getLsbD_extractLsb', State.statusWord_getLsbD]; grind

/-- Settles O12: CTXV is the sixteen flags A above the sixteen flags V. -/
theorem ctxvWordLayout : Obligations.CtxvWordLayout := by
  intro s k
  have hk : k.toNat < 16 := k.isLt
  constructor
  · unfold State.ctxvWord
    rw [BitVec.getLsbD_append, if_pos hk, BitVec.getLsbD_ofFnLE, dif_pos hk]
    rfl
  · unfold State.ctxvWord
    rw [BitVec.getLsbD_append, if_neg (by omega), Nat.add_sub_cancel_left, BitVec.getLsbD_ofFnLE, dif_pos hk]
    rfl

/-- R37: STATUS is 0 in IDLE with no key and no fault recorded. -/
theorem State.statusWord_eq_zero {s : State} (hseq : s.seq = .idle) (hcause : s.cause = 0) (hkeyed : s.keyed = false) :
    s.statusWord = 0 := by
  simp [State.statusWord, State.faultBit, State.halgBit, hseq, hcause, hkeyed]

/-- R37: CTXV is 0 when no context is valid. -/
theorem State.ctxvWord_eq_zero {s : State} (h : ∀ k : BitVec 4, (s.getCtx k).valid = false) : s.ctxvWord = 0 := by
  have hv : s.validBit = fun _ => false := funext fun k => by
    have : (s.ctx[k.val]'k.isLt).valid = false := h (.ofFin k)
    simp [State.validBit, this]
  have ha : s.algFlag = fun _ => false := funext fun k => by simp [State.algFlag, hv]
  rw [State.ctxvWord, hv, ha]
  decide

/-- Settles O13: both acts carry out the same reset. -/
theorem hardwareResetLeaves : Obligations.HardwareResetLeaves := by
  intro s act rest hp hact
  have hstep : step s = .next ({ s with pending := rest } : State).hardwareReset := by
    rcases hact with rfl | ⟨tr, rfl⟩ <;> simp only [step, State.takeAct, hp, State.carryOut]
  have hvalid := ({ s with pending := rest } : State).getCtx_hardwareReset_valid
  exact ⟨_, hstep, hvalid, rfl, rfl, State.statusWord_eq_zero rfl rfl rfl, rfl, State.ctxvWord_eq_zero hvalid, rfl, rfl,
    rfl, rfl, rfl⟩

/-- Settles O14: no context is valid and the core is not keyed. -/
theorem resetStateValues : Obligations.ResetStateValues :=
  ⟨State.getCtx_reset_valid, rfl, rfl, State.statusWord_eq_zero rfl rfl rfl, rfl,
    State.ctxvWord_eq_zero State.getCtx_reset_valid, rfl⟩

/-! ### Commands that complete, with what they answer -/

/-- R123: `Update` with no bytes does nothing. -/
theorem Engine.update_nil (e : Engine) (hfi : e.c.fi.toNat < 64) : e.update [] = e := by
  have htop : e.topUp [] = (e, []) := by
    by_cases h0 : 0 < e.c.fi.toNat <;> simp [Engine.topUp, h0, memWrite, Engine.withBuf, Nat.ne_of_lt hfi]
  simp [Engine.update, htop, Engine.directBlocks, Engine.tail]

/-- Settles O27: from what `Update` does, and `Update` of no bytes. -/
theorem dUpdateResult : Obligations.DUpdateResult := by
  intro k len s hp hk hv
  have hpass := firstFault_ctx_eq_none.mpr ⟨hp, hk, hv⟩
  refine ⟨fun hfi => ?_, fun hfi => exec_of_refusal hpass (if_neg (by omega))⟩
  have hlt : (s.getCtx k).fi.toNat < 64 := by omega
  obtain ⟨hvalid, halg, hfi', hcount, hh, hlive, -⟩ :=
    (s.engine (s.getCtx k)).update_spec s.cmd.payload hlt
  rw [hp] at hfi' hcount
  refine ⟨((s.engine (s.getCtx k)).update s.cmd.payload).c, _, _,
    (s.withChecks_of_pass _ hpass).trans (Context.indexed_of_lt _ _ hlt), hvalid.trans hv, halg, hfi', hcount, ?_, hlive,
    fun hlen => ?_⟩
  · rw [halg]; exact hh
  · rw [List.length_eq_zero_iff.mp (hp.trans hlen), Engine.update_nil (s.engine (s.getCtx k)) hlt]
    exact ⟨rfl, rfl, rfl⟩

/-- Settles O29: from what `Digest` answers. -/
theorem dDigestResult : Obligations.DDigestResult := by
  intro k s hp hk hv
  have hpass := firstFault_ctx_eq_none.mpr ⟨List.length_eq_zero_iff.mpr hp, hk, hv⟩
  refine ⟨fun hfi => ?_, fun hfi => exec_of_refusal hpass (if_neg (by omega))⟩
  have hlt : (s.getCtx k).fi.toNat < 64 := by omega
  refine ⟨_, _, _, _, (s.withChecks_of_pass _ hpass).trans (Context.indexed_of_lt _ _ hlt),
    ((s.engine (s.getCtx k)).digest_spec hlt).1, ?_⟩
  rw [((s.engine (s.getCtx k)).digest_spec hlt).1, extract_length]
  change digestBytes (s.getCtx k).alg = _
  cases (s.getCtx k).alg <;> rfl

/-- Settles O46: from what the two passes answer. -/
theorem hDigestResult : Obligations.HDigestResult := by
  intro s hp hkeyed
  have hpass := firstFault_keyed_eq_none.mpr ⟨hp, hkeyed⟩
  refine ⟨fun hroom => ?_, fun cap hcap hgt =>
    (s.withChecks_of_pass _ hpass).trans (s.accIndexed_of_gt _ cap hcap hgt)⟩
  have hr : refusalOf s .hDigest = none := by
    have hfull : s.accFull 0 = false := (s.accFull_eq_false 0).mpr hroom
    simp [refusalOf, hfull]
  obtain ⟨t, ht, -, -, -, hc, sh, md5, sha1, rfl⟩ := exec_of_pass (i := .hDigest) hpass hr
  exact ⟨hc, sh, md5, sha1, ht⟩

/-- R132: at most 55 bytes are padded to one block. -/
theorem paddedEnd_length_short (alg : Alg) (m : ByteString) (lo hi : Word) (hm : m.length ≤ 55) :
    (paddedEnd alg m lo hi).length = 64 := by
  simp only [paddedEnd, if_pos hm, List.length_append, List.length_cons, zeros_length, lengthField_length]
  omega

/-- The digest of one block and at most 55 bytes more: two blocks are compressed. -/
theorem messageDigest_block (alg : Alg) (b m : ByteString) (hb : b.length = 64) (hm : m.length ≤ 55) :
    messageDigest alg (b ++ m) = extract alg (compress alg (compress alg (initialWords alg) b)
      (paddedEnd alg m ((messageBits (b ++ m)).extractLsb' 0 32) ((messageBits (b ++ m)).extractLsb' 32 32))) := by
  have hone (lo hi : Word) : wholeBlocks (paddedEnd alg m lo hi) = [paddedEnd alg m lo hi] := by
    have := wholeBlocks_block _ [] (paddedEnd_length_short alg m lo hi hm)
    rwa [List.append_nil, wholeBlocks_short [] (by simp)] at this
  simp only [messageDigest, leftover_block b m hb, wholeBlocks_block b m hb, leftover_short m (by omega),
    wholeBlocks_short m (by omega), hone, List.cons_append, List.nil_append, hashBlocks_cons, hashBlocks_nil]

theorem messageDigest_length (alg : Alg) (msg : ByteString) : (messageDigest alg msg).length = digestBytes alg :=
  extract_length _ _

/-- Settles O47: KOPAD is one block, and the inner digest with its padding is the second. -/
theorem outerPassIsTwoBlocks : Obligations.OuterPassIsTwoBlocks := by
  intro s hp hkeyed hroom inner last
  have hinner : inner.length = digestBytes s.halg := messageDigest_length _ _
  obtain ⟨hc, sh, md5, sha1, ht⟩ := (hDigestResult s hp hkeyed).1 hroom
  have hlast : last = paddedEnd s.halg inner ((messageBits (s.kopad.toList ++ inner)).extractLsb' 0 32)
      ((messageBits (s.kopad.toList ++ inner)).extractLsb' 32 32) := by
    have hbits : messageBits (s.kopad.toList ++ inner) = BitVec.ofNat 64 (8 * (64 + digestBytes s.halg)) := by
      rw [messageBits, List.length_append, hinner, Vector.length_toList]
    rw [hbits, paddedEnd, hinner]
    simp only [last]
    cases s.halg <;> rfl
  have hshort : inner.length ≤ 55 := by rw [hinner]; cases s.halg <;> decide
  refine ⟨?_, ?_, _, ht, ?_⟩
  · rw [hinner]; cases s.halg <;> rfl
  · rw [hlast, paddedEnd_length_short _ _ _ _ hshort]
  · have houter := messageDigest_block s.halg s.kopad.toList inner (by simp) hshort
    rw [← hlast] at houter
    exact congrArg (fun r => s.rsp ++ [⟨.ok, r⟩]) houter

end Sys2Proof.Machine
end

section
/-! Proofs of the statements on the order of commands and their responses, and on accesses to the memories (20_memory). -/

namespace Sys2Proof.Machine

/-! ### One response per transaction -/

/-- R93: from `s` to `t` one response is given, FAULT and empty when `t` is in FAULTED, OK otherwise. -/
def answersOnce (s t : State) : Prop :=
  ∃ r : Response, t.rsp = s.rsp ++ [r] ∧ (r.code = .fault ↔ t.seq = .faulted) ∧ (r.code = .fault → r.bytes = [])

theorem answersOnce_of_fault {s t : State} (hseq : t.seq = .faulted) (hrsp : t.rsp = s.rsp ++ [⟨.fault, []⟩]) :
    answersOnce s t :=
  ⟨_, hrsp, iff_of_true rfl hseq, fun _ => rfl⟩

theorem answersOnce_of_ok {s t : State} {bytes : ByteString} (hseq : t.seq = .idle)
    (hrsp : t.rsp = s.rsp ++ [⟨.ok, bytes⟩]) : answersOnce s t :=
  ⟨_, hrsp, iff_of_false nofun (hseq ▸ nofun), nofun⟩

/-- R90, R93: a command run in IDLE is answered once, and what is pending is left. -/
theorem exec_answersOnce {s t : State} {i : Instr} (hseq : s.seq = .idle) (h : exec i s = .next t) :
    t.pending = s.pending ∧ answersOnce s t := by
  rcases exec_cases i s t h with ⟨code, rfl⟩ | he
  · exact ⟨rfl, answersOnce_of_fault rfl rfl⟩
  · obtain ⟨hsame, -, -, bytes, hrsp⟩ := effect_status he
    obtain ⟨-, hpending, -⟩ := effect_ports he
    exact ⟨hpending, answersOnce_of_ok (hsame.trans hseq) hrsp⟩

/-- R300: an act that resets the block is not answered. -/
theorem HostAct.answered_of_resets {act : HostAct} (h : act.resets = true) : act.answered = false := by
  cases act with
  | reset | commandAbandoned => rfl
  | command | statRead => cases h

/-- Settles O15: by what a step can do; only a transaction that is not abandoned is answered, in FAULTED, by the effect
of its command, or by a fault. -/
theorem oneResponsePerCommand : Obligations.OneResponsePerCommand := by
  intro s t act rest hp h
  change t.pending = rest ∧ (act.answered = true → answersOnce s t) ∧ (act.answered = false → t.rsp = s.rsp)
  rcases step_cases s t h with ⟨hp', -⟩ | ⟨tr, _, hp', hseq, rfl⟩ | ⟨tr, _, i, hp', hseq, -, he⟩ |
    ⟨tr, _, hp', -, -, rfl⟩ | ⟨tr, _, hp', -, -, rfl⟩ | ⟨_, _, hp', hr, rfl⟩ | ⟨n, _, hp', rfl⟩ <;>
    cases hp.symm.trans hp'
  · exact ⟨rfl, fun _ => answersOnce_of_fault hseq rfl, nofun⟩
  · obtain ⟨hpending, hanswer⟩ := exec_answersOnce (s := s.atPort tr rest) hseq he
    exact ⟨hpending, fun _ => hanswer, nofun⟩
  · exact ⟨rfl, fun _ => answersOnce_of_fault rfl rfl, nofun⟩
  · exact ⟨rfl, fun _ => answersOnce_of_fault rfl rfl, nofun⟩
  · exact ⟨rfl, fun ha => Bool.noConfusion (ha.symm.trans (HostAct.answered_of_resets hr)), fun _ => rfl⟩
  · exact ⟨rfl, nofun, fun _ => rfl⟩

/-! ### No access out of range -/

/-- R24, R27, R62: when the contexts and the accumulator are in order, a command whose checks pass is not refused: its
context is valid, so its fill index is in BUF, and ACC_LEN is within ACC_CAP. -/
theorem refusalOf_eq_none {s : State} (hctx : s.CtxInv) (hacc : s.AccInv) {i : Instr}
    (hpass : firstFault (checksOf s i) = none) : refusalOf s i = none := by
  have hfi {k : BitVec 4} (hv : (s.getCtx k).valid = true) : (s.getCtx k).fi.toNat < 64 :=
    Nat.lt_succ_of_le ((hctx k).1 hv).1
  cases i with
  | dUpdate k len =>
    obtain ⟨-, -, hv⟩ := firstFault_ctx_eq_none.mp hpass
    exact if_pos (hfi hv)
  | dDigest k =>
    obtain ⟨-, -, hv⟩ := firstFault_ctx_eq_none.mp hpass
    exact if_pos (hfi hv)
  | hDigest =>
    obtain ⟨-, -, hroom, -⟩ := hacc
    have hfull : s.accFull 0 = false :=
      (s.accFull_eq_false 0).mpr fun cap hcap => of_decide_eq_true ((Option.all_eq_true _ _).mp hroom cap hcap)
    simp [refusalOf, hfull]
  | dInit | dReset | dClone | dLen | hKey | hReset | hUpdate => rfl

/-- R315: a command answers a next state: the fault of its first failing check, or its effect. -/
theorem exec_completes {s : State} (hctx : s.CtxInv) (hacc : s.AccInv) (i : Instr) : ∃ t, exec i s = .next t := by
  cases hf : firstFault (checksOf s i) with
  | some code => exact ⟨_, exec_of_fault hf⟩
  | none =>
    obtain ⟨t, ht, -⟩ := exec_of_pass hf (refusalOf_eq_none hctx hacc hf)
    exact ⟨t, ht⟩

theorem State.runCommand_completes {s : State} (hctx : s.CtxInv) (hacc : s.AccInv) : ∃ t, s.runCommand = .next t := by
  unfold State.runCommand
  cases decode s.cmd.cw with
  | command i => exact exec_completes hctx hacc i
  | illegalOpc | reserved => exact ⟨_, rfl⟩

theorem State.present_completes {s : State} (hctx : s.CtxInv) (hacc : s.AccInv) (tr : Transaction) :
    ∃ t, s.present tr = .next t := by
  cases hseq : s.seq with
  | idle =>
    rw [State.present_of_idle hseq]
    exact State.runCommand_completes (s := { s with cmd := tr }) hctx hacc
  | faulted => exact ⟨_, State.present_of_faulted hseq tr⟩

/-- Settles O56: waiting, a reset and a status read always answer a next state, and a transaction does because no
command is refused. -/
theorem stepAlwaysCompletes : Obligations.StepAlwaysCompletes := by
  intro s hs
  obtain ⟨-, hctx, hacc, -⟩ := s.inv_iff.mp hs
  unfold step State.takeAct
  cases s.pending with
  | nil => exact ⟨_, rfl⟩
  | cons act rest =>
    cases act with
    | command tr => exact State.present_completes (s := { s with pending := rest }) hctx hacc tr
    | commandAbandoned | reset | statRead => exact ⟨_, rfl⟩

end Sys2Proof.Machine
end

section
/-! Proofs of the statements on the command word: its decoder and encoder, and the opcode table (30_encoding R91 to
R98). -/

namespace Sys2Proof.Machine

/-! ### The rows of the opcode table -/

/-- A field under a mask of zeros or of ones is zero when the mask is, or when the field is. -/
theorem and_eq_zero_iff_of_mask {w : Nat} {m : BitVec w} (h : m = 0 ∨ m = BitVec.allOnes w) (x : BitVec w) :
    x &&& m = 0 ↔ m = 0 ∨ x = 0 := by
  obtain rfl | rfl := h
  · simp
  · rw [BitVec.and_allOnes]
    refine ⟨.inr, ?_⟩
    rintro (hm | hx)
    · rw [← BitVec.and_allOnes (x := x), hm, BitVec.ofNat_eq_ofNat, BitVec.and_zero]
    · exact hx

/-- R95: a row's mask covers MBZ and OPC, and each of the other fields whole or not at all. -/
theorem maskFields_zeros_or_ones (i : Instr) :
    ((maskFields i).len = 0 ∨ (maskFields i).len = BitVec.allOnes 16) ∧ (maskFields i).mbz = BitVec.allOnes 3 ∧
      ((maskFields i).alg = 0 ∨ (maskFields i).alg = BitVec.allOnes 1) ∧
      ((maskFields i).ctx2 = 0 ∨ (maskFields i).ctx2 = BitVec.allOnes 4) ∧
      ((maskFields i).ctx = 0 ∨ (maskFields i).ctx = BitVec.allOnes 4) ∧ (maskFields i).opc = BitVec.allOnes 4 := by
  cases i <;> simp only [maskFields] <;> decide

/-- R95: a word matches the row of a command exactly when OPC is that command's and every field but the command's
operands, which the row's mask leaves out, is zero. -/
theorem matches_row_iff (cw : Word) (i : Instr) :
    cw &&& rowMask i = rowMatch i ↔
      ((maskFields i).len = 0 ∨ (fieldsOf cw).len = 0) ∧ (fieldsOf cw).mbz = 0 ∧
        ((maskFields i).alg = 0 ∨ (fieldsOf cw).alg = 0) ∧ ((maskFields i).ctx2 = 0 ∨ (fieldsOf cw).ctx2 = 0) ∧
        ((maskFields i).ctx = 0 ∨ (fieldsOf cw).ctx = 0) ∧ (fieldsOf cw).opc = (fieldsOfInstr i).opc := by
  obtain ⟨hlen, hmbz, halg, hctx2, hctx, hopc⟩ := maskFields_zeros_or_ones i
  rw [and_eq_iff_fields, fieldsOf_rowMask, fieldsOf_rowMatch, hmbz, hopc, BitVec.and_allOnes, BitVec.and_allOnes,
    and_eq_zero_iff_of_mask hlen, and_eq_zero_iff_of_mask halg, and_eq_zero_iff_of_mask hctx2,
    and_eq_zero_iff_of_mask hctx]

/-- R95: the word of a command matches the command's row. -/
theorem encode_matches_row (i : Instr) : encode i &&& rowMask i = rowMatch i := by
  cases i with
  | dInit k alg => exact Laws.TableRow.dInit k alg
  | dReset k => exact Laws.TableRow.dReset k
  | dUpdate k len => exact Laws.TableRow.dUpdate k len
  | dDigest k => exact Laws.TableRow.dDigest k
  | dClone dst src => exact Laws.TableRow.dClone dst src
  | dLen k => exact Laws.TableRow.dLen k
  | hKey alg len => exact Laws.TableRow.hKey alg len
  | hReset => exact Laws.TableRow.hReset
  | hUpdate len => exact Laws.TableRow.hUpdate len
  | hDigest => exact Laws.TableRow.hDigest

theorem row_mem_opcodeRows (i : Instr) : (rowMatch i, rowMask i) ∈ opcodeRows := by
  cases i <;> simp only [rowMatch, rowMask] <;> decide

/-- R91: OPC is the low four bits of the word. -/
theorem fieldsOf_opc_toNat (cw : Word) : (fieldsOf cw).opc.toNat = (cw &&& 0xF).toNat := by
  rw [BitVec.toNat_and]
  exact (BitVec.extractLsb'_toNat ..).trans (Nat.and_two_pow_sub_one_eq_mod cw.toNat 4).symm

/-- R95: every row of the table covers OPC, which must be the row's match value, 0x1 to 0xA. -/
theorem opcode_of_matches {cw : Word} {row : Word × Word} (hrow : row ∈ opcodeRows) (h : cw &&& row.2 = row.1) :
    cw &&& 0xF = row.1 ∧ opcodeLegal cw := by
  have hrows : ∀ r ∈ opcodeRows, r.2 &&& 0xF = 0xF ∧ r.1 &&& 0xF = r.1 ∧ 1 ≤ r.1.toNat ∧ r.1.toNat ≤ 10 := by
    simp [opcodeRows]
  obtain ⟨hmask, hmatch, hlegal⟩ := hrows row hrow
  have hopc : cw &&& 0xF = row.1 := by rw [← hmask, ← BitVec.and_assoc, h, hmatch]
  exact ⟨hopc, by rw [opcodeLegal, hopc]; exact hlegal⟩

/-- R95: a row of the table is determined by its match value. -/
theorem opcodeRow_inj {r r' : Word × Word} (hr : r ∈ opcodeRows) (hr' : r' ∈ opcodeRows) (h : r.1 = r'.1) : r = r' :=
  List.inj_on_of_nodup_map (f := Prod.fst) (by decide) hr hr' h

/-! ### The command OPC names -/

/-- R95: the command OPC names, its operands read from their fields, whatever the other fields hold. -/
def namedCommand (f : Fields) : Option Instr :=
  match f.opc.toNat with
  | 1 => some (.dInit f.ctx (algOfBit f.alg))
  | 2 => some (.dReset f.ctx)
  | 3 => some (.dUpdate f.ctx f.len.toNat)
  | 4 => some (.dDigest f.ctx)
  | 5 => some (.dClone f.ctx f.ctx2)
  | 6 => some (.dLen f.ctx)
  | 7 => some (.hKey (algOfBit f.alg) f.len.toNat)
  | 8 => some .hReset
  | 9 => some (.hUpdate f.len.toNat)
  | 10 => some .hDigest
  | _ => none

/-- R95, R97: OPC is legal exactly when it names a command. -/
theorem opcodeLegal_iff (cw : Word) : opcodeLegal cw ↔ ∃ i, namedCommand (fieldsOf cw) = some i := by
  rw [opcodeLegal, ← fieldsOf_opc_toNat, namedCommand]
  split <;> grind

theorem opc_of_namedCommand {f : Fields} {i : Instr} (h : namedCommand f = some i) : f.opc = (fieldsOfInstr i).opc := by
  apply BitVec.eq_of_toNat_eq
  unfold namedCommand at h
  split at h <;> cases h <;> assumption

theorem opcode_of_namedCommand {cw : Word} {i : Instr} (h : namedCommand (fieldsOf cw) = some i) :
    cw &&& 0xF = rowMatch i := by
  apply BitVec.eq_of_toNat_eq
  rw [← fieldsOf_opc_toNat, opc_of_namedCommand h]
  cases i <;> rfl

/-- R91: the LEN field holds no length above LEN_MAX. -/
theorem lenFits_toNat (len : BitVec 16) : Instr.lenFits len.toNat = true :=
  decide_eq_true (Nat.le_of_lt_succ len.isLt)

theorem wf_of_namedCommand {f : Fields} {i : Instr} (h : namedCommand f = some i) : i.wf = true := by
  unfold namedCommand at h
  split at h <;> cases h <;> simp [Instr.wf, lenFits_toNat]

/-- A well formed command is the one its own word names: the LEN field holds its length. -/
theorem namedCommand_fieldsOfInstr {i : Instr} (h : i.wf = true) : namedCommand (fieldsOfInstr i) = some i := by
  have hlen {n : Nat} (hn : Instr.lenFits n = true) : n % 65536 = n :=
    Nat.mod_eq_of_lt (Nat.lt_succ_of_le (of_decide_eq_true hn))
  cases i with
  | dUpdate k n | hKey alg n | hUpdate n => simp [namedCommand, fieldsOfInstr, hlen h]
  | dInit | dReset | dDigest | dClone | dLen | hReset | hDigest => simp [namedCommand, fieldsOfInstr]

/-- The fields of a word that matches the row of the command it names are those of the command's word. -/
theorem fieldsOfInstr_of_namedCommand {cw : Word} {i : Instr} (h : namedCommand (fieldsOf cw) = some i)
    (hrow : cw &&& rowMask i = rowMatch i) : fieldsOfInstr i = fieldsOf cw := by
  obtain ⟨hlen, hmbz, halg, hctx2, hctx, hopc⟩ := (matches_row_iff cw i).mp hrow
  unfold namedCommand at h
  split at h <;> cases h <;> simp_all [Fields.ext_iff, fieldsOfInstr, maskFields]

/-- R96: for a word whose OPC names a command, some must-be-zero field is not zero exactly when the word does not match
the command's row. -/
theorem strayBit_iff {cw : Word} {i : Instr} (h : namedCommand (fieldsOf cw) = some i) :
    strayBit cw ↔ cw &&& rowMask i ≠ rowMatch i := by
  rw [← not_iff_not, not_ne_iff, matches_row_iff, opc_of_namedCommand h, strayBit, opcode_of_namedCommand h]
  cases i <;> simp [rowMatch, maskFields, fieldsOf, and_assoc, and_comm, and_left_comm]

/-! ### What a word decodes to -/

theorem whenZero_eq_ite {mustBeZero : Bool} {p : Prop} [Decidable p] (i : Instr) (h : mustBeZero = true ↔ p) :
    whenZero mustBeZero i = if p then .command i else .reserved := by
  simp only [whenZero, h]

/-- R95 to R97: the decoder takes the command OPC names and holds the word to that command's row. -/
theorem decode_eq (cw : Word) :
    decode cw =
      match namedCommand (fieldsOf cw) with
      | some i => if cw &&& rowMask i = rowMatch i then .command i else .reserved
      | none => .illegalOpc := by
  have hnat (b : BitVec 4) : (fieldsOf cw).opc = b ↔ (fieldsOf cw).opc.toNat = b.toNat := BitVec.toNat_inj.symm
  simp only [decode, namedCommand]
  split <;> simp only [*]
  all_goals
    rename_i hopc
    refine whenZero_eq_ite _ ?_
    rw [matches_row_iff, hnat, hopc]
    simp [maskFields, fieldsOfInstr, and_comm, and_left_comm]

theorem decode_eq_command_iff {cw : Word} {i : Instr} :
    decode cw = .command i ↔ namedCommand (fieldsOf cw) = some i ∧ cw &&& rowMask i = rowMatch i := by
  rw [decode_eq]
  cases namedCommand (fieldsOf cw) with
  | none => simp
  | some j =>
    by_cases hrow : cw &&& rowMask j = rowMatch j <;> simp [hrow] <;> rintro rfl <;> exact hrow

theorem decode_eq_illegalOpc_iff {cw : Word} : decode cw = .illegalOpc ↔ namedCommand (fieldsOf cw) = none := by
  rw [decode_eq]
  cases namedCommand (fieldsOf cw) with
  | none => simp
  | some j => by_cases hrow : cw &&& rowMask j = rowMatch j <;> simp [hrow]

theorem decode_eq_reserved_iff {cw : Word} :
    decode cw = .reserved ↔ ∃ i, namedCommand (fieldsOf cw) = some i ∧ cw &&& rowMask i ≠ rowMatch i := by
  rw [decode_eq]
  cases namedCommand (fieldsOf cw) with
  | none => simp
  | some j => by_cases hrow : cw &&& rowMask j = rowMatch j <;> simp [hrow]

/-- Settles O1: the word of a command names the command and matches its row. -/
theorem decodeOfEncode : Obligations.DecodeOfEncode := by
  intro i hwf
  refine decode_eq_command_iff.mpr ⟨?_, encode_matches_row i⟩
  rw [encode, fieldsOf_wordOf, namedCommand_fieldsOfInstr hwf]

/-- Settles O2: the word has the fields of the command it names, the unused ones being zero in both. -/
theorem encodeOfDecode : Obligations.EncodeOfDecode := by
  intro cw i h
  obtain ⟨hnamed, hrow⟩ := decode_eq_command_iff.mp h
  refine ⟨wf_of_namedCommand hnamed, ?_⟩
  rw [encode, fieldsOfInstr_of_namedCommand hnamed hrow, wordOf_fieldsOf]

/-- A word that matches a row of the table is a command, the row's. -/
theorem decode_of_matches {cw : Word} {row : Word × Word} (hrow : row ∈ opcodeRows) (h : cw &&& row.2 = row.1) :
    ∃ i, decode cw = .command i ∧ (rowMatch i, rowMask i) = row := by
  obtain ⟨hopc, hlegal⟩ := opcode_of_matches hrow h
  obtain ⟨i, hi⟩ := (opcodeLegal_iff cw).mp hlegal
  have hsame : (rowMatch i, rowMask i) = row :=
    opcodeRow_inj (row_mem_opcodeRows i) hrow ((opcode_of_namedCommand hi).symm.trans hopc)
  subst hsame
  exact ⟨i, decode_eq_command_iff.mpr ⟨hi, h⟩, rfl⟩

/-- Settles O3: a command is what OPC names when the word matches that command's row. -/
theorem decodeMatchesOpcodeTable : Obligations.DecodeMatchesOpcodeTable := fun _ =>
  ⟨fun i h => ⟨row_mem_opcodeRows i, (decode_eq_command_iff.mp h).2⟩, fun _ hrow h => decode_of_matches hrow h⟩

/-- R95: no word matches two rows, since a row it matches has OPC as its match value. -/
theorem matchedRows_length_le_one (cw : Word) :
    (opcodeRows.filter fun row => cw &&& row.2 == row.1).length ≤ 1 := by
  rw [← List.countP_eq_length_filter]
  calc opcodeRows.countP (fun row => cw &&& row.2 == row.1)
    _ ≤ opcodeRows.countP (fun row => row.1 == cw &&& 0xF) :=
      List.countP_mono_left fun row hrow h => beq_iff_eq.mpr (opcode_of_matches hrow (beq_iff_eq.mp h)).1.symm
    _ = (opcodeRows.map Prod.fst).count (cw &&& 0xF) := by rw [List.count, List.countP_map]; rfl
    _ ≤ 1 := List.nodup_iff_count_le_one.mp (by decide) _

/-- Settles O4: a command is a word that matches a row, and the two refusals are the two ways not to match one. -/
theorem everyWordHasOneOutcome : Obligations.EveryWordHasOneOutcome := by
  intro cw
  have hle := matchedRows_length_le_one cw
  have hcommand : (∃ i, decode cw = .command i) ↔ 0 < (opcodeRows.filter fun row => cw &&& row.2 == row.1).length := by
    simp only [List.length_pos_iff_exists_mem, List.mem_filter, beq_iff_eq]
    constructor
    · rintro ⟨i, hi⟩
      exact ⟨_, row_mem_opcodeRows i, (decode_eq_command_iff.mp hi).2⟩
    · rintro ⟨row, hrow, h⟩
      obtain ⟨i, hi, -⟩ := decode_of_matches hrow h
      exact ⟨i, hi⟩
  refine ⟨hcommand.trans (by omega), hle, ?_, ?_⟩
  · rw [decode_eq_illegalOpc_iff, opcodeLegal_iff, not_exists, Option.eq_none_iff_forall_ne_some]
  · rw [decode_eq_reserved_iff, opcodeLegal_iff, ← exists_and_right]
    exact exists_congr fun i => and_congr_right fun hi => (strayBit_iff hi).symm

/-- Settles O5: each word is the word of its command. -/
theorem workedEncodingsDecode : Obligations.WorkedEncodingsDecode :=
  ⟨decodeOfEncode (.dInit 0 .md5) rfl, decodeOfEncode (.dInit 1 .sha1) rfl, decodeOfEncode (.dReset 1) rfl,
    decodeOfEncode (.dUpdate 0 3) rfl, decodeOfEncode (.dUpdate 1 0) rfl, decodeOfEncode (.dDigest 0) rfl,
    decodeOfEncode (.dClone 1 0) rfl, decodeOfEncode (.dLen 1) rfl, decodeOfEncode (.hKey .sha1 4) rfl,
    decodeOfEncode (.hKey .md5 4) rfl, decodeOfEncode .hReset rfl, decodeOfEncode (.hUpdate 28) rfl,
    decodeOfEncode .hDigest rfl⟩

end Sys2Proof.Machine
end

section
/-! Proofs of the statements on the assembler (30_encoding R92, R99, R100) and on status reads (R101). -/

namespace Sys2Proof.Machine

/-! ### The pieces of a payload -/

/-- R100 (c): even an empty payload is one piece. -/
theorem cutPayload_ne_nil (fuel : Nat) (p : ByteString) : cutPayload fuel p ≠ [] := by
  cases fuel with
  | zero => simp [cutPayload]
  | succ fuel => unfold cutPayload; split <;> simp

/-- R100 (c): the pieces are consecutive and leave nothing out. -/
theorem flatten_cutPayload (fuel : Nat) (p : ByteString) : (cutPayload fuel p).flatten = p := by
  induction fuel generalizing p with
  | zero => simp [cutPayload]
  | succ fuel ih =>
    unfold cutPayload
    split
    · simp
    · rw [List.flatten_cons, ih, List.take_append_drop]

/-- R100 (c): with fuel enough, no piece is longer than LEN_MAX. -/
theorem length_le_of_mem_cutPayload {fuel : Nat} {p : ByteString} (h : p.length ≤ (fuel + 1) * lenMax) :
    ∀ piece ∈ cutPayload fuel p, piece.length ≤ lenMax := by
  induction fuel generalizing p with
  | zero => simpa [cutPayload] using h
  | succ fuel ih =>
    unfold cutPayload
    split
    · simpa
    · have hrest : (p.drop lenMax).length ≤ (fuel + 1) * lenMax := by
        rw [List.length_drop]
        exact Nat.sub_le_of_le_add (Nat.succ_mul (fuel + 1) lenMax ▸ h)
      exact List.forall_mem_cons.mpr ⟨List.length_take_le .., ih hrest⟩

/-- R100 (c): each piece but the last is as long as a piece can be. -/
theorem length_eq_of_mem_dropLast_cutPayload (fuel : Nat) (p : ByteString) :
    ∀ piece ∈ (cutPayload fuel p).dropLast, piece.length = lenMax := by
  induction fuel generalizing p with
  | zero => simp [cutPayload]
  | succ fuel ih =>
    unfold cutPayload
    split
    · simp
    · next hlong =>
      rw [List.dropLast_cons_of_ne_nil (cutPayload_ne_nil _ _), List.forall_mem_cons]
      exact ⟨List.length_take_of_le (by omega), ih _⟩

theorem length_le_of_mem_payloadPieces {p piece : ByteString} (h : piece ∈ payloadPieces p) : piece.length ≤ lenMax :=
  length_le_of_mem_cutPayload (by rw [Nat.mul_comm]; exact (Nat.lt_mul_div_succ p.length (by decide)).le) piece h

/-- Settles O59: by induction on the cuts. -/
theorem payloadPiecesMakeThePayload : Obligations.PayloadPiecesMakeThePayload := fun p =>
  ⟨flatten_cutPayload _ p, fun _ h => length_le_of_mem_payloadPieces h, length_eq_of_mem_dropLast_cutPayload _ p⟩

/-! ### The commands of a line -/

/-- R100: the commands a line stands for, each with its payload. -/
def AsmLine.commands : AsmLine → List (Instr × ByteString)
  | .dInit k alg => [(.dInit k alg, [])]
  | .dReset k => [(.dReset k, [])]
  | .dUpdate k p => (payloadPieces p).map fun q => (.dUpdate k q.length, q)
  | .dDigest k => [(.dDigest k, [])]
  | .dClone dst src => [(.dClone dst src, [])]
  | .dLen k => [(.dLen k, [])]
  | .hKey alg key => [(.hKey alg key.length, key)]
  | .hReset => [(.hReset, [])]
  | .hUpdate p => (payloadPieces p).map fun q => (.hUpdate q.length, q)
  | .hDigest => [(.hDigest, [])]
  | .hash k alg p =>
    [(.dInit k alg, [])] ++ (payloadPieces p).map (fun q => (.dUpdate k q.length, q)) ++ [(.dDigest k, [])]
  | .mac alg key p =>
    [(.hKey alg key.length, key)] ++ (payloadPieces p).map (fun q => (.hUpdate q.length, q)) ++ [(.hDigest, [])]

/-- R92: the key a line gives, which is not cut into pieces; none but H_KEY and MAC give one. -/
def AsmLine.keyBytes : AsmLine → ByteString
  | .hKey _ key => key
  | .mac _ key _ => key
  | .dInit _ _ | .dReset _ | .dUpdate _ _ | .dDigest _ | .dClone _ _ | .dLen _ | .hReset | .hUpdate _ | .hDigest
  | .hash _ _ _ => []

/-- A line expands to the transactions of its commands, unless its key is too long to be given (R92). -/
theorem AsmLine.expand_eq (line : AsmLine) :
    line.expand =
      if line.keyBytes.length ≤ lenMax then some (line.commands.map fun c => transactionOf c.1 c.2) else none := by
  cases line with
  | hKey alg key => simp [expand, keyBytes, commands, keyCommand]
  | mac alg key p =>
    by_cases h : key.length ≤ lenMax <;> simp [expand, keyBytes, commands, keyCommand, hmacUpdateCommands, h]
  | dUpdate k p => simp [expand, keyBytes, commands, updateCommands]
  | hUpdate p => simp [expand, keyBytes, commands, hmacUpdateCommands]
  | hash k alg p => simp [expand, keyBytes, commands, updateCommands]
  | dInit | dReset | dDigest | dClone | dLen | hReset | hDigest => simp [expand, keyBytes, commands]

/-- R92: the payload of each command of a line is as long as the command announces. -/
theorem AsmLine.length_payload (line : AsmLine) : ∀ c ∈ line.commands, c.2.length = announced c.1 := by
  cases line <;> simp [commands, announced, or_imp, forall_and, -Prod.forall]

/-- R92: with a key that can be given, the payload of each command of a line fits. -/
theorem AsmLine.length_payload_le {line : AsmLine} (h : line.keyBytes.length ≤ lenMax) :
    ∀ c ∈ line.commands, c.2.length ≤ lenMax := by
  have hpieces (p : ByteString) : ∀ q ∈ payloadPieces p, q.length ≤ lenMax := fun _ => length_le_of_mem_payloadPieces
  cases line with
  | dUpdate k p | hUpdate p => simpa [commands] using hpieces p
  | hash k alg p => simpa [commands, or_imp, forall_and, -Prod.forall] using hpieces p
  | mac alg key p => simpa [commands, keyBytes, or_imp, forall_and, -Prod.forall] using And.intro h (hpieces p)
  | hKey alg key => simpa [commands, keyBytes] using h
  | dInit | dReset | dDigest | dClone | dLen | hReset | hDigest => simp [commands]

theorem AsmLine.lenMax_lt_length_keyBytes_iff (line : AsmLine) :
    lenMax < line.keyBytes.length ↔
      ∃ alg key, lenMax < key.length ∧ (line = .hKey alg key ∨ ∃ p, line = .mac alg key p) := by
  cases line <;> simp [keyBytes]

/-- R91: a command can be encoded exactly when the payload it announces fits LEN. -/
theorem wf_iff_announced (i : Instr) : i.wf = true ↔ announced i ≤ lenMax := by
  cases i <;> simp [Instr.wf, Instr.lenFits, announced]

/-- Settles O60: a line expands to the words of its commands, each well formed because its payload fits LEN, and O1
decodes them. -/
theorem assembledTransactionsDecode : Obligations.AssembledTransactionsDecode := by
  intro line
  refine ⟨?_, line.length_payload, ?_⟩
  · intro ts hts
    rw [line.expand_eq, Option.ite_none_right_eq_some, Option.some.injEq] at hts
    obtain ⟨hkey, rfl⟩ := hts
    change _ = line.commands.map _
    rw [List.map_map]
    refine List.map_congr_left fun c hc => ?_
    have hwf : c.1.wf = true :=
      (wf_iff_announced c.1).mpr (line.length_payload c hc ▸ AsmLine.length_payload_le hkey c hc)
    exact Prod.ext (decodeOfEncode c.1 hwf) rfl
  · rw [line.expand_eq, ite_eq_right_iff]
    exact Iff.trans (by simp) line.lenMax_lt_length_keyBytes_iff

/-! ### Status reads -/

theorem State.statRead_eq_ite (s : State) (n : Nat) :
    s.statRead n = if n = 0 then s.statusWord else if n = 1 then s.finfo else if n = 2 then s.ctxvWord else 0 := by
  unfold State.statRead
  split <;> simp_all

/-- Settles O10: a status read appends the register's value, which does not depend on the pending acts. -/
theorem statusReadReturnsRegister : Obligations.StatusReadReturnsRegister := by
  intro s n rest hp
  have htake : step s = .next (({ s with pending := rest } : State).readStatus n) := by
    simp only [step, State.takeAct, hp, State.carryOut]
  rw [htake, State.readStatus, State.statRead_eq_ite]
  rfl

end Sys2Proof.Machine
end

section
/-! Proofs of the statements on the digest commands and the engine's procedures (40_hash_engine). -/

namespace Sys2Proof.Machine

/-! ### The digest commands hash the message -/

/-- R270: a command that does not leave FAULTED has had its effect. -/
theorem effect_of_idle {i : Instr} {s t : State} (hseq : t.seq = .idle) (h : exec i s = .next t) : effect s t i := by
  rcases exec_cases i s t h with ⟨code, rfl⟩ | he
  · cases hseq
  · exact he

/-- Settles O39: by the effect of each command and what `Init`, `Update` and `Digest` do to the message held. -/
theorem digestCommandsHashTheMessage : Obligations.DigestCommandsHashTheMessage := by
  intro s t k alg msg _ hseq
  refine ⟨fun h => ?dInit, fun hm => ⟨fun h => ?dReset, fun len h => ?dUpdate, fun dst h => ?dClone, fun h => ?dDigest⟩⟩
  case dInit =>
    obtain ⟨-, -, rfl⟩ := effect_of_idle hseq h
    simpa using (s.getCtx k).init_holds alg
  case dReset =>
    obtain ⟨-, -, -, rfl⟩ := effect_of_idle hseq h
    obtain ⟨-, halg, -⟩ := hm
    simpa [halg] using (s.getCtx k).init_holds alg
  case dUpdate =>
    obtain ⟨-, -, -, -, md5, sha1, rfl⟩ := effect_of_idle hseq h
    simpa using (s.engine (s.getCtx k)).update_holds alg msg s.cmd.payload hm
  case dClone =>
    obtain ⟨-, -, -, -, rfl⟩ := effect_of_idle hseq h
    exact ⟨by simpa using hm, by simpa [State.getCtx_setCtx] using hm⟩
  case dDigest =>
    obtain ⟨-, -, -, -, sh, md5, sha1, rfl⟩ := effect_of_idle hseq h
    have hdigest := (s.engine (s.getCtx k)).digest_holds alg msg hm
    exact ⟨by rw [State.respond_rsp, hdigest], hm⟩

/-! ### The bytes of BUF after Update -/

/-- One byte of a 64-byte memory after `MemWrite`, in the string written or in the memory. -/
theorem memWrite_getElem? (mem : Vector Byte 64) (j n : Nat) (s : ByteString) (hn : n < 64) :
    some (memWrite mem j s)[n] = if j ≤ n ∧ n < j + s.length then s[n - j]? else some mem[n] := by
  rw [memWrite_getElem]
  split
  · rw [List.getElem?_eq_getElem]
  · rfl

/-- R123: BUF after `Update(c, D)`. While the block stays partial, `D` stands at FI; otherwise the beginning of `D` has
completed a pending block, and the tail of `D` stands at byte 0. -/
theorem Engine.update_buf (e : Engine) (d : ByteString) (hfi : e.c.fi.toNat < 64) :
    (e.update d).c.buf =
      if e.c.fi.toNat + d.length < 64 then memWrite e.c.buf e.c.fi.toNat d
      else memWrite
        (if e.c.fi.toNat = 0 then e.c.buf else memWrite e.c.buf e.c.fi.toNat (d.take (64 - e.c.fi.toNat)))
        0 (d.drop (d.length - (e.c.fi.toNat + d.length) % 64)) := by
  obtain ⟨-, -, -, htop⟩ := e.topUp_spec d hfi
  obtain ⟨hrest, -, -, hbuf, hfi', -⟩ :=
    Engine.directBlocks_spec ((e.topUp d).2.length / 64) (e.topUp d).1 (e.topUp d).2
  have hshort : (Engine.directBlocks ((e.topUp d).2.length / 64) (e.topUp d).1 (e.topUp d).2).2.length < 64 := by
    rw [hrest, List.length_drop]; omega
  rcases htop with ⟨hpart, -, hnil, -, -, -, hwritten, -⟩ | ⟨hzero, hwhole, hwritten, hleft, -⟩
  · have hnone : (Engine.directBlocks ((e.topUp d).2.length / 64) (e.topUp d).1 (e.topUp d).2).2 = [] := by
      rw [hrest, hnil, List.drop_nil]
    obtain ⟨-, -, -, -, -, -, htail, -⟩ := Engine.tail_spec _ _ hshort (.inl hnone)
    rw [if_pos hpart, Engine.update, htail, hnone, hbuf, hwritten, memWrite]
  · obtain ⟨-, -, -, -, -, -, htail, -⟩ := Engine.tail_spec _ _ hshort (.inr (hfi' ▸ hzero))
    rw [Engine.update, htail, hbuf, hwritten, hrest, hleft]
    by_cases h0 : e.c.fi.toNat = 0
    · simp only [h0, if_true, Nat.zero_add]
      split
      · next hlt => rw [Nat.div_eq_of_lt hlt, Nat.mul_zero, List.drop_zero]
      · congr 2; omega
    · simp only [h0, if_false]
      rw [if_neg (by omega), List.drop_drop, List.length_drop]
      congr 2; omega

/-- R123: the bytes of BUF after `Update(c, D)` while the block stays partial. -/
theorem Engine.update_buf_of_partial (e : Engine) (d : ByteString) (j : Fin 64)
    (h : e.c.fi.toNat + d.length < 64) :
    some (e.update d).c.buf[j] =
      if e.c.fi.toNat ≤ j.val ∧ j.val < e.c.fi.toNat + d.length then d[j.val - e.c.fi.toNat]? else some e.c.buf[j] := by
  rw [e.update_buf d (by omega), if_pos h]
  exact memWrite_getElem? _ _ _ _ j.isLt

/-- R123: the bytes of BUF after `Update(c, D)` has completed a block: the tail of `D`, above it what completed a
pending block, and below FI what was there. -/
theorem Engine.update_buf_of_complete (e : Engine) (d : ByteString) (j : Fin 64) (hfi : e.c.fi.toNat < 64)
    (h : 64 ≤ e.c.fi.toNat + d.length) :
    some (e.update d).c.buf[j] =
      if j.val < (e.c.fi.toNat + d.length) % 64 then d[d.length - (e.c.fi.toNat + d.length) % 64 + j.val]?
      else if 0 < e.c.fi.toNat ∧ e.c.fi.toNat ≤ j.val then d[j.val - e.c.fi.toNat]?
      else some e.c.buf[j] := by
  have htail : (d.drop (d.length - (e.c.fi.toNat + d.length) % 64)).length = (e.c.fi.toNat + d.length) % 64 := by
    rw [List.length_drop]; omega
  have hhead : (d.take (64 - e.c.fi.toNat)).length = 64 - e.c.fi.toNat := by rw [List.length_take]; omega
  rw [e.update_buf d hfi, if_neg (by omega), Fin.getElem_fin, memWrite_getElem? _ _ _ _ j.isLt, htail]
  by_cases hj : j.val < (e.c.fi.toNat + d.length) % 64
  · rw [if_pos (by omega), if_pos hj, List.getElem?_drop, Nat.sub_zero]
  · rw [if_neg (by omega), if_neg hj]
    by_cases h0 : e.c.fi.toNat = 0
    · rw [if_pos h0, if_neg (by omega), Fin.getElem_fin]
    · rw [if_neg h0, memWrite_getElem? _ _ _ _ j.isLt, hhead]
      by_cases hf : e.c.fi.toNat ≤ j.val
      · rw [if_pos (by omega), if_pos (by omega), List.getElem?_take_of_lt (by omega)]
      · rw [if_neg (by omega), if_neg (by omega), Fin.getElem_fin]

/-- Settles O28: by the two writes of `Update` to BUF. -/
theorem dUpdateWritesBuf : Obligations.DUpdateWritesBuf := by
  intro k s j hk hv hfi
  have hlt : (s.getCtx k).fi.toNat < 64 := by omega
  obtain ⟨t, ht, -, -, -, -, md5, sha1, rfl⟩ := exec_of_pass (i := .dUpdate k s.cmd.payload.length)
    (firstFault_ctx_eq_none.mpr ⟨rfl, hk, hv⟩) (if_pos hlt)
  refine ⟨_, ht, ?_⟩
  rw [State.getCtx_respond, State.getCtx_setCtx_same]
  exact ⟨(s.engine (s.getCtx k)).update_buf_of_partial s.cmd.payload j,
    (s.engine (s.getCtx k)).update_buf_of_complete s.cmd.payload j hlt⟩

/-! ### Feeding in chunks -/

/-- What can be told of a context (R23): everything but the dead bytes of BUF. -/
def Context.observed (c : Context) : Bool × Alg × BitVec 7 × Word × Word × Vector Word 5 × ByteString :=
  (c.valid, c.alg, c.fi, c.bcLo, c.bcHi, c.h, c.live)

theorem Context.observed_eq_iff (c d : Context) :
    c.observed = d.observed ↔ c.valid = d.valid ∧ c.alg = d.alg ∧ c.fi = d.fi ∧ c.bcLo = d.bcLo ∧ c.bcHi = d.bcHi ∧
      c.h = d.h ∧ c.live = d.live := by
  simp only [Context.observed, Prod.mk.injEq]

/-- R126: `Digest` reads no dead byte. -/
theorem Engine.digest_congr {e f : Engine} (h : e.c.observed = f.c.observed) (hfi : e.c.fi.toNat < 64) :
    e.digest.2 = f.digest.2 := by
  obtain ⟨-, halg, hfieq, hlo, hhi, hh, hlive⟩ := (Context.observed_eq_iff _ _).mp h
  rw [(e.digest_spec hfi).1, (f.digest_spec (hfieq ▸ hfi)).1]
  simp only [Context.bitLo, Context.bitHi, Context.bitTotal, halg, hfieq, hlo, hhi, hh, hlive]

theorem Engine.update_fi_lt (e : Engine) (d : ByteString) (hfi : e.c.fi.toNat < 64) : (e.update d).c.fi.toNat < 64 := by
  obtain ⟨-, -, hfi', -⟩ := e.update_spec d hfi
  omega

/-- R125: feeding two strings one after the other is feeding them together, dead bytes apart. -/
theorem Engine.update_append (e : Engine) (d1 d2 : ByteString) (hfi : e.c.fi.toNat < 64) :
    ((e.update d1).update d2).c.observed = (e.update (d1 ++ d2)).c.observed := by
  obtain ⟨v1, a1, f1, k1, h1, l1, -⟩ := e.update_spec d1 hfi
  obtain ⟨v2, a2, f2, k2, h2, l2, -⟩ := (e.update d1).update_spec d2 (e.update_fi_lt d1 hfi)
  obtain ⟨v, a, f, k, h, l, -⟩ := e.update_spec (d1 ++ d2) hfi
  rw [List.length_append] at f k
  have hcount : ((e.update d1).update d2).c.counter = (e.update (d1 ++ d2)).c.counter := by
    rw [k2, k1, f1, k]; omega
  obtain ⟨hlo, hhi⟩ := Context.counter_inj _ _ hcount
  refine (Context.observed_eq_iff _ _).mpr ⟨?_, ?_, BitVec.eq_of_toNat_eq ?_, hlo, hhi, ?_, ?_⟩
  · rw [v2, v1, v]
  · rw [a2, a1, a]
  · rw [f2, f1, f]; omega
  · rw [h2, a1, h1, l1, h, ← hashBlocks_append, ← wholeBlocks_append, List.append_assoc]
  · rw [l2, l1, l, ← leftover_append, List.append_assoc]

/-- Settles O38: feeding in chunks is associative, so later strings are fed together with the earlier ones. -/
theorem chunkingInvariance : Obligations.ChunkingInvariance := by
  intro e d1 d2 hfi
  have hlt : e.c.fi.toNat < 64 := by omega
  have h1 := e.update_fi_lt d1 hlt
  have hsame := e.update_append d1 d2 hlt
  have hlater (later : ByteString) :
      (((e.update d1).update d2).update later).c.observed = ((e.update (d1 ++ d2)).update later).c.observed := by
    rw [(e.update d1).update_append d2 later h1, e.update_append d1 (d2 ++ later) hlt, ← List.append_assoc,
      ← e.update_append (d1 ++ d2) later hlt]
  obtain ⟨hvalid, halg, hfieq, hlo, hhi, hh, hlive⟩ := (Context.observed_eq_iff _ _).mp hsame
  exact ⟨hvalid, halg, hfieq, hlo, hhi, hh, hlive, fun later =>
    Engine.digest_congr (hlater later) (Engine.update_fi_lt _ later ((e.update d1).update_fi_lt d2 h1))⟩

/-! ### Digest -/

/-- R134: D_DIGEST changes none of what its checks read, whether it completes or faults. -/
theorem exec_dDigest_keeps {k : BitVec 4} {s t : State} (h : exec (.dDigest k) s = .next t) :
    t.params = s.params ∧ t.cmd = s.cmd ∧ t.ctx = s.ctx := by
  rcases exec_cases _ s t h with ⟨code, rfl⟩ | ⟨-, -, -, -, sh, md5, sha1, rfl⟩
  · exact ⟨rfl, rfl, rfl⟩
  · exact ⟨rfl, rfl, rfl⟩

/-- R143: what D_DIGEST answers. -/
theorem effect_dDigest_rsp {k : BitVec 4} {s t : State} (h : effect s t (.dDigest k)) :
    t.rsp = s.rsp ++ [⟨.ok, (s.engine (s.getCtx k)).digest.2⟩] := by
  obtain ⟨-, -, -, -, sh, md5, sha1, rfl⟩ := h
  rfl

/-- Settles O30: the second D_DIGEST meets the same checks and the same context, so it takes the same fault or answers
the same digest. -/
theorem digestDoesNotMutate : Obligations.DigestDoesNotMutate := by
  intro k s t h
  obtain ⟨hparams, hcmd, hctx⟩ := exec_dDigest_keeps h
  refine ⟨hctx, ?_⟩
  rcases exec_lockstep (checksOf_congr_digest rfl hparams hcmd hctx)
      (fun _ => refusalOf_congr_digest (i := .dDigest k) rfl hctx) with
    ⟨code, hs, ht⟩ | ⟨s', u, hs, ht, es, eu⟩ | ⟨r, hs, -⟩
  · cases h.symm.trans hs
    exact ⟨_, _, rfl, ht, rfl⟩
  · obtain rfl : t = s' := Host.Outcome.next.inj (h.symm.trans hs)
    have hget : t.getCtx k = s.getCtx k := by simp only [State.getCtx, hctx]
    have hdigest : (t.engine (t.getCtx k)).digest.2 = (s.engine (s.getCtx k)).digest.2 := by
      obtain ⟨-, -, -, hfi, -⟩ := eu
      exact Engine.digest_congr (congrArg Context.observed hget) hfi
    exact ⟨_, u, effect_dDigest_rsp es, ht, hdigest ▸ effect_dDigest_rsp eu⟩
  · cases h.symm.trans hs

/-- R283: the empty message is padded to the one block `80`, zeros, length 0. -/
theorem messageDigest_nil (alg : Alg) :
    messageDigest alg [] = extract alg (compress alg (initialWords alg) (0x80 :: zeros 63)) := by
  have hpad : paddedEnd alg (leftover []) ((messageBits []).extractLsb' 0 32) ((messageBits []).extractLsb' 32 32) =
      0x80 :: zeros 63 := by cases alg <;> rfl
  have hblock : wholeBlocks (0x80 :: zeros 63) = [0x80 :: zeros 63] := rfl
  rw [messageDigest, hpad, hblock, wholeBlocks_short [] (by simp)]
  rfl

/-- Settles O31: a context straight from `Init` holds the empty message. -/
theorem emptyMessageDigest : Obligations.EmptyMessageDigest := by
  intro k s c alg hp hk hinit
  have hm : (s.getCtx k).holds alg [] := hinit ▸ c.init_holds alg
  have hv : (s.getCtx k).valid = true := hinit ▸ rfl
  have hfi : (s.getCtx k).fi.toNat < 64 := hinit ▸ Nat.zero_lt_succ 63
  obtain ⟨t, ht, he⟩ := exec_of_pass (i := .dDigest k)
    (firstFault_ctx_eq_none.mpr ⟨List.length_eq_zero_iff.mpr hp, hk, hv⟩) (if_pos hfi)
  refine ⟨t, ht, ?_⟩
  rw [effect_dDigest_rsp he, (s.engine (s.getCtx k)).digest_holds alg [] hm, messageDigest_nil]

/-! ### The counter, the bit count and Finalize -/

/-- Settles O35: by the two halves of the counter. -/
theorem incBcCountsModulo : Obligations.IncBcCountsModulo := fun c => ⟨c.counter_incBc, rfl, rfl⟩

/-- R127: the bit count as shifts: the fill index stands below the nine bits the counter is shifted by. -/
theorem Context.bitTotal_eq_or (c : Context) (hfi : c.fi.toNat < 64) :
    c.bitTotal = (c.bcHi ++ c.bcLo) <<< 9 ||| c.fi.setWidth 64 <<< 3 := by
  have hcounter : (c.bcHi ++ c.bcLo).toNat = c.bcHi.toNat * 2 ^ 32 + c.bcLo.toNat := by
    rw [BitVec.toNat_append, ← Nat.shiftLeft_add_eq_or_of_lt c.bcLo.isLt, Nat.shiftLeft_eq]
  have hbelow : c.fi.toNat <<< 3 < 2 ^ 9 := by rw [Nat.shiftLeft_eq]; omega
  apply BitVec.eq_of_toNat_eq
  rw [Context.bitTotal, BitVec.toNat_ofNat, BitVec.toNat_or, BitVec.toNat_shiftLeft, BitVec.toNat_shiftLeft, hcounter,
    BitVec.toNat_setWidth_of_le (by decide), ← Nat.or_mod_two_pow, ← Nat.shiftLeft_add_eq_or_of_lt hbelow,
    Nat.shiftLeft_eq, Nat.shiftLeft_eq]
  congr 1
  omega

/-- Settles O36: the halves are read off the bit count as shifts, and `Finalize` writes no counter. -/
theorem bitCountHalves : Obligations.BitCountHalves := by
  refine ⟨fun c hfi => ⟨BitVec.toNat_ofNat _ _, ?_, ?_⟩, fun e lo hi hfi => ?_⟩
  · rw [Context.bitLo, c.bitTotal_eq_or (by omega)]
    ext i hi
    grind
  · rw [Context.bitHi, c.bitTotal_eq_or (by omega)]
    ext i hi
    grind
  · obtain ⟨-, -, -, hlo, hhi, -⟩ := e.finalize_spec lo hi (by omega)
    exact ⟨hlo, hhi⟩

/-- Settles O37: with at most 14 words used the padded end is one block, otherwise two. -/
theorem finalizeCompressesPaddedBlocks : Obligations.FinalizeCompressesPaddedBlocks := by
  intro e lo hi hfi field
  have hfield : field = lengthField e.c.alg lo hi := rfl
  have hlive := e.c.live_length (by omega)
  obtain ⟨-, halg, hfi', -⟩ := e.finalize_spec lo hi (by omega)
  refine ⟨fun hshort => ?_, fun hlong => ?_, hfi', halg⟩
  · obtain ⟨buf, hone, -⟩ := e.finalize_one lo hi hshort
    rw [hone, Engine.transform_c, paddedEnd, hlive, if_pos hshort, hfield]
    rfl
  · obtain ⟨buf, buf', htwo⟩ := e.finalize_two lo hi (by omega) (by omega)
    simp only [htwo, Engine.transform_c, Engine.withBuf, hfield]

/-! ### Commands that complete, written out -/

/-- R121, R171, R201: what D_INIT and D_RESET leave, written out. -/
theorem State.setCtx_init (s : State) (k : BitVec 4) (alg : Alg) :
    (s.setCtx k ((s.getCtx k).init alg)).respond [] = { s with
      ctx := s.ctx.set k.toNat
        { valid := true
          alg := alg
          buf := (s.getCtx k).buf
          fi := 0
          bcLo := 0
          bcHi := 0
          h := match alg with
            | .md5 => #v[0x67452301, 0xEFCDAB89, 0x98BADCFE, 0x10325476, 0x00000000]
            | .sha1 => #v[0x67452301, 0xEFCDAB89, 0x98BADCFE, 0x10325476, 0xC3D2E1F0] } k.isLt
      rsp := s.rsp ++ [⟨.ok, []⟩] } := by
  cases alg <;> rfl

/-- Settles O25: D_INIT reads no context, so its checks pass whatever the context holds. -/
theorem dInitResult : Obligations.DInitResult := by
  intro k alg s hp hk
  obtain ⟨t, ht, -, -, rfl⟩ := exec_of_pass (i := .dInit k alg) (s := s)
    ((firstFault_eq_none _).mpr (by simp [checksOf, hp, hk])) rfl
  exact ht.trans (congrArg _ (s.setCtx_init k alg))

/-- Settles O26: what D_INIT leaves, with the algorithm the context had. -/
theorem dResetResult : Obligations.DResetResult := by
  intro k s hp hk hv
  obtain ⟨t, ht, -, -, -, rfl⟩ := exec_of_pass (i := .dReset k)
    (firstFault_ctx_eq_none.mpr ⟨List.length_eq_zero_iff.mpr hp, hk, hv⟩) rfl
  exact ht.trans (congrArg _ (s.setCtx_init k _))

/-- Settles O32: D_CLONE reads the source alone, so its checks pass whatever the destination holds. -/
theorem dCloneResult : Obligations.DCloneResult := by
  intro dst src s hp hdst hsrc hv
  obtain ⟨t, ht, -, -, -, -, rfl⟩ := exec_of_pass (i := .dClone dst src) (s := s)
    ((firstFault_eq_none _).mpr (by simp [checksOf, hp, hdst, hsrc, hv])) rfl
  exact ht

/-- Settles O33: the digest length of each algorithm in bytes. -/
theorem dLenResult : Obligations.DLenResult := by
  intro k s hp hk hv
  obtain ⟨t, ht, -, -, -, rfl⟩ := exec_of_pass (i := .dLen k)
    (firstFault_ctx_eq_none.mpr ⟨List.length_eq_zero_iff.mpr hp, hk, hv⟩) rfl
  rw [ht]
  cases (s.getCtx k).alg <;> rfl

end Sys2Proof.Machine
end

section
/-! Proofs of the statements on the MD5 transform (41_md5_compression). -/

namespace Sys2Proof.Machine

/-! ### The roles of A, B, C, D in RFC 1321's unrolled form -/

/-- The register of A, B, C, D that has role `n` of `[abcd k s i]` in step `i`. -/
def rfcRole (i n : Nat) : Fin 4 := Fin.ofNat 4 (4 - i % 4 + n)

/-- A role passes to the register that had the role before it. -/
theorem rfcRole_succ_succ (i n : Nat) : rfcRole (i + 1) (n + 1) = rfcRole i n := by
  apply Fin.ext
  simp only [rfcRole, Fin.val_ofNat]
  omega

/-- The first role passes to the register that had the last. -/
theorem rfcRole_succ_zero (i : Nat) : rfcRole (i + 1) 0 = rfcRole i 3 := by
  apply Fin.ext
  simp only [rfcRole, Fin.val_ofNat]
  omega

/-- The four roles of a step belong to different registers. -/
theorem rfcRole_ne_zero (i n : Nat) (hpos : 0 < n) (hlt : n < 4) : rfcRole i n ≠ rfcRole i 0 := by
  simp only [rfcRole, ne_eq, Fin.ext_iff, Fin.val_ofNat]
  omega

/-! ### One step of the rolled form and of the unrolled form -/

/-- R179: every rotation amount is legal for `rotl`. -/
theorem md5Shift_lt : ∀ i < 64, md5Shift i < 32 := by decide

/-- R182: the unrolled step, by the unit's own function, constants and rotation. -/
theorem rfcStep_eq (x : Vector Word 16) (r : Vector Word 4) (i : Nat) (hi : i < 64) :
    rfcStep x r i = r.set (rfcRole i 0) (r[rfcRole i 1] +
      rotl (r[rfcRole i 0] + md5Fun i r[rfcRole i 1] r[rfcRole i 2] r[rfcRole i 3] + x[md5Index i] + md5T.getD i 0)
        (md5Shift i)) := by
  rw [rotl_eq_rotateLeft _ _ (md5Shift_lt i hi), ← rfcFunction_eq i hi]
  simp only [rfcStep, rfcTable_row i hi]
  rfl

/-- The unrolled step writes only the register of the first role. -/
theorem rfcStep_getElem_kept (x : Vector Word 16) (r : Vector Word 4) (i n : Nat) (hi : i < 64) (hpos : 0 < n)
    (hlt : n < 4) : (rfcStep x r i)[rfcRole i n] = r[rfcRole i n] := by
  rw [rfcStep_eq x r i hi]
  exact Vector.getElem_set_ne _ _ fun heq => rfcRole_ne_zero i n hpos hlt (Fin.ext heq.symm)

/-- Before step `i` the unit holds the block words `x`, and in its registers a, b, c, d what A, B, C, D hold in these
roles. -/
structure Md5Unit.Follows (u : Md5Unit) (x : Vector Word 16) (r : Vector Word 4) (i : Nat) : Prop where
  words : u.x = x
  a : u.a = r[rfcRole i 0]
  b : u.b = r[rfcRole i 1]
  c : u.c = r[rfcRole i 2]
  d : u.d = r[rfcRole i 3]

/-- R172: renaming the registers after a step follows the rotation of the roles. -/
theorem Md5Unit.Follows.step {u : Md5Unit} {x : Vector Word 16} {r : Vector Word 4} {i : Nat}
    (h : u.Follows x r i) (hi : i < 64) : (md5Step u i).Follows x (rfcStep x r i) (i + 1) := by
  obtain ⟨rfl, ha, hb, hc, hd⟩ := h
  constructor
  case words => rfl
  case a =>
    simp only [rfcRole_succ_zero, rfcStep_getElem_kept _ _ i 3 hi (by decide) (by decide)]
    exact hd
  case b =>
    simp only [rfcRole_succ_succ, rfcStep_eq _ _ i hi, ← ha, ← hb, ← hc, ← hd]
    exact (Vector.getElem_set_self _).symm
  case c =>
    simp only [rfcRole_succ_succ, rfcStep_getElem_kept _ _ i 1 hi (by decide) (by decide)]
    exact hb
  case d =>
    simp only [rfcRole_succ_succ, rfcStep_getElem_kept _ _ i 2 hi (by decide) (by decide)]
    exact hc

/-! ### The 64 steps -/

/-- R172: the rolled form follows the unrolled form through the first `n` steps. -/
theorem Md5Unit.Follows.foldl_range {u : Md5Unit} {x : Vector Word 16} {r : Vector Word 4} (h : u.Follows x r 0)
    (n : Nat) (hn : n ≤ 64) :
    ((List.range n).foldl md5Step u).Follows x ((List.range n).foldl (rfcStep x) r) n := by
  induction n with
  | zero => exact h
  | succ n ih =>
    simp only [List.range_succ, List.foldl_append, List.foldl_cons, List.foldl_nil]
    exact (ih (by omega)).step (by omega)

/-- R172, R173: the loaded unit has the chaining value in A, B, C, D, in their roles of step 0. -/
theorem md5Load_follows (h : Vector Word 5) (block : ByteString) :
    (md5Load h block).Follows (Vector.ofFn fun j => leWord block j) #v[h[0], h[1], h[2], h[3]] 0 :=
  ⟨rfl, rfl, rfl, rfl, rfl⟩

/-- R181: after 64 steps the roles are where they began, so the feed-forward adds A, B, C, D in their own order. -/
theorem Md5Unit.Follows.add_eq {u : Md5Unit} {x : Vector Word 16} {r : Vector Word 4} (f : u.Follows x r 64)
    (h : Vector Word 5) : md5Add h u = #v[h[0] + r[0], h[1] + r[1], h[2] + r[2], h[3] + r[3], h[4]] := by
  rw [md5Add, f.a, f.b, f.c, f.d]
  rfl

/-- Settles O40: the rolled form follows the unrolled form through all 64 steps. -/
theorem md5RolledIsUnrolled : Obligations.Md5RolledIsUnrolled := by
  intro h block x r
  have hfollows : (md5Run h block).Follows x r 64 := (md5Load_follows h block).foldl_range 64 (Nat.le_refl 64)
  exact hfollows.add_eq h

end Sys2Proof.Machine
end

section
/-! Proofs of the statements on the SHA-1 transform (42_sha1_compression). -/

namespace Sys2Proof.Machine

/-! ### The logic functions, bit by bit -/

/-- R205: if `x` then `y` else `z`, bit by bit. -/
theorem getElem_sha1Ch (x y z : Word) (i : Nat) (hi : i < 32) :
    (sha1Ch x y z)[i] = bif x[i] then y[i] else z[i] := by
  simp only [sha1Ch, BitVec.getElem_or, BitVec.getElem_and, BitVec.getElem_not]
  cases x[i] <;> simp

/-- R207: each bit is the one that at least two of the three words have there. -/
theorem getElem_sha1Maj (x y z : Word) (i : Nat) (hi : i < 32) :
    (sha1Maj x y z)[i] = bif x[i] then y[i] || z[i] else y[i] && z[i] := by
  simp only [sha1Maj, BitVec.getElem_or, BitVec.getElem_and]
  cases x[i]
  · simp
  · cases y[i] <;> simp

theorem sha1Ch_eq_xor (x y z : Word) : sha1Ch x y z = z ^^^ (x &&& (y ^^^ z)) := by
  ext i hi
  rw [getElem_sha1Ch x y z i hi, BitVec.getElem_xor, BitVec.getElem_and, BitVec.getElem_xor]
  cases x[i]
  · simp
  · cases y[i] <;> simp

theorem sha1Maj_eq_or (x y z : Word) : sha1Maj x y z = (x &&& y) ||| (z &&& (x ||| y)) := by
  ext i hi
  rw [getElem_sha1Maj x y z i hi, BitVec.getElem_or, BitVec.getElem_and, BitVec.getElem_and, BitVec.getElem_or]
  cases x[i]
  · simp [Bool.and_comm]
  · cases y[i] <;> simp

/-- Settles O42: the forms have the same bits. -/
theorem logicFunctionAlternates : Obligations.LogicFunctionAlternates := fun x y z =>
  ⟨sha1Ch_eq_xor x y z, sha1Maj_eq_or x y z⟩

/-! ### The schedule -/

/-- R204: the word that the four words before place `t` give for it. -/
def sha1NextWord (w : Vector Word 80) (t : Nat) (ht : t < 80) : Word :=
  (w[t - 3] ^^^ w[t - 8] ^^^ w[t - 14] ^^^ w[t - 16]).rotateLeft 1

/-- The next word depends on the words before its place only. -/
theorem sha1NextWord_congr {w w' : Vector Word 80} {t : Nat} (ht : t < 80) (hpos : 0 < t)
    (h : ∀ j (hj : j < t), w'[j] = w[j]) : sha1NextWord w' t ht = sha1NextWord w t ht := by
  simp only [sha1NextWord, h (t - 3) (by omega), h (t - 8) (by omega), h (t - 14) (by omega), h (t - 16) (by omega)]

/-- R204: an expansion step writes the next word at its place. -/
theorem sha1Expand_getElem_self (w : Vector Word 80) (t : Nat) (ht : t < 80) :
    (sha1Expand w t)[t] = sha1NextWord w t ht := by
  have hword (k : Nat) : w[Fin.ofNat 80 (t - k)] = w[t - k] := by
    simp only [Fin.getElem_fin, Fin.val_ofNat, Nat.mod_eq_of_lt (show t - k < 80 by omega)]
  simp only [sha1Expand, sha1NextWord, hword, rotl_eq_rotateLeft _ 1 (by decide), Vector.getElem_setIfInBounds_self]

/-- An expansion step changes no other word. -/
theorem sha1Expand_getElem_ne (w : Vector Word 80) (t j : Nat) (hj : j < 80) (hne : t ≠ j) :
    (sha1Expand w t)[j] = w[j] :=
  Vector.getElem_setIfInBounds_ne hj hne

/-- R202, R204: `W[0..15]` are the block words, and the words from `W[16]` up to place `n` are expanded. -/
structure ExpandedTo (block : ByteString) (n : Nat) (w : Vector Word 80) : Prop where
  loaded : ∀ t (_ : t < 16), w[t] = beWord block t
  expanded : ∀ t (ht : t < 80), 16 ≤ t → t < n → w[t] = sha1NextWord w t ht

/-- R202: the block words are loaded before the expansion begins. -/
theorem sha1Words_expandedTo (block : ByteString) : ExpandedTo block 16 (sha1Words block) where
  loaded t ht := by simp only [sha1Words, Vector.getElem_ofFn, if_pos ht]
  expanded t _ hge hlt := absurd hlt (by omega)

/-- R204: an expansion step adds one word and changes none before it. -/
theorem ExpandedTo.step {block : ByteString} {n : Nat} {w : Vector Word 80} (h : ExpandedTo block n w) (hge : 16 ≤ n)
    (hn : n < 80) : ExpandedTo block (n + 1) (sha1Expand w n) := by
  have hkept : ∀ j (hj : j < n), (sha1Expand w n)[j] = w[j] := fun j hj =>
    sha1Expand_getElem_ne w n j (by omega) (by omega)
  constructor
  case loaded => exact fun t ht => (hkept t (by omega)).trans (h.loaded t ht)
  case expanded =>
    intro t ht hge' hlt
    rw [sha1NextWord_congr ht (by omega) fun j hj => hkept j (by omega)]
    rcases Nat.lt_succ_iff_lt_or_eq.mp hlt with hlt | rfl
    · exact (hkept t hlt).trans (h.expanded t ht hge' hlt)
    · exact sha1Expand_getElem_self w t ht

/-- R204: `m` expansion steps in increasing order. -/
theorem ExpandedTo.foldl_range' {block : ByteString} {w : Vector Word 80} (h : ExpandedTo block 16 w) (m : Nat)
    (hm : m ≤ 64) : ExpandedTo block (16 + m) ((List.range' 16 m).foldl sha1Expand w) := by
  induction m with
  | zero => exact h
  | succ m ih =>
    rw [List.range'_1_concat, List.foldl_append]
    exact (ih (by omega)).step (by omega) (by omega)

/-- R202, R204: the whole schedule is expanded. -/
theorem sha1Schedule_expandedTo (block : ByteString) : ExpandedTo block 80 (sha1Schedule block) :=
  (sha1Words_expandedTo block).foldl_range' 64 (Nat.le_refl 64)

/-! ### The 80 steps -/

/-- The five transient registers of the unit (R33). -/
def Sha1Unit.registers (u : Sha1Unit) : Vector Word 5 := #v[u.a, u.b, u.c, u.d, u.e]

/-- R203: the unit before step `t`. -/
def sha1Before (h : Vector Word 5) (block : ByteString) (t : Nat) : Sha1Unit :=
  (List.range t).foldl sha1Step (sha1Load h block)

/-- R203: the registers begin as the chaining value. -/
theorem sha1Before_zero_registers (h : Vector Word 5) (block : ByteString) :
    (sha1Before h block 0).registers = h := by
  ext i hi
  match i with
  | 0 | 1 | 2 | 3 | 4 => rfl

theorem sha1Before_succ (h : Vector Word 5) (block : ByteString) (t : Nat) :
    sha1Before h block (t + 1) = sha1Step (sha1Before h block t) t := by
  simp only [sha1Before, List.range_succ, List.foldl_append, List.foldl_cons, List.foldl_nil]

/-- R203: before every step the unit holds the whole schedule. -/
theorem sha1Before_w (h : Vector Word 5) (block : ByteString) (t : Nat) :
    (sha1Before h block t).w = sha1Schedule block :=
  sha1Step_foldl_w _ _

/-- R210: a step updates all five registers from the old ones. -/
theorem sha1Step_registers (u : Sha1Unit) (t : Nat) (ht : t < 80) :
    (sha1Step u t).registers =
      #v[u.a.rotateLeft 5 + sha1Fun t u.b u.c u.d + u.e + u.w[t] + sha1K t, u.a, u.b.rotateLeft 30, u.c, u.d] := by
  have hword : u.w[Fin.ofNat 80 t] = u.w[t] := by
    simp only [Fin.getElem_fin, Fin.val_ofNat, Nat.mod_eq_of_lt ht]
  rw [← hword, ← rotl_eq_rotateLeft u.a 5 (by decide), ← rotl_eq_rotateLeft u.b 30 (by decide)]
  rfl

/-- R210: step `t`, with the word of the schedule at `t`. -/
theorem sha1Before_succ_registers (h : Vector Word 5) (block : ByteString) (t : Nat) (ht : t < 80) :
    let u := sha1Before h block t
    (sha1Before h block (t + 1)).registers =
      #v[u.a.rotateLeft 5 + sha1Fun t u.b u.c u.d + u.e + (sha1Schedule block)[t] + sha1K t, u.a,
        u.b.rotateLeft 30, u.c, u.d] := by
  intro u
  rw [sha1Before_succ, sha1Step_registers _ t ht]
  simp only [sha1Before_w, u]

/-- R124, R211: on a SHA-1 context the engine writes the result of the transform to the working words. -/
theorem Engine.transform_h_of_sha1 (e : Engine) (block : ByteString) (halg : e.c.alg = .sha1) :
    (e.transform block).c.h = sha1Transform e.c.h block := by
  rw [Engine.transform_c, halg]
  rfl

/-- Settles O41: by the schedule that the expansion leaves and the registers of the unit before each step. -/
theorem sha1ScheduleAndSteps : Obligations.Sha1ScheduleAndSteps := by
  intro h block w
  have hw : ExpandedTo block 80 w := sha1Schedule_expandedTo block
  refine ⟨fun t ht => ⟨hw.loaded t, fun hge => hw.expanded t ht hge ht⟩, ?_, ?_⟩
  · exact ⟨fun t => (sha1Before h block t).registers, sha1Before_zero_registers h block,
      sha1Before_succ_registers h block, rfl⟩
  · rintro e halg rfl
    exact e.transform_h_of_sha1 block halg

end Sys2Proof.Machine
end

section
/-! Proofs of the statements on the HMAC core (43_hmac). -/

namespace Sys2Proof.Machine

/-! ### The key -/

/-- R269: no algorithm of the block has a digest of more than 64 bytes. -/
theorem digestTooLong_eq_false (alg : Alg) : digestTooLong alg = false := by cases alg <;> rfl

/-- When the checks of H_KEY pass: the payload has the announced length, and nothing else is asked. -/
theorem firstFault_hKey_eq_none {s : State} {alg : Alg} {len : Nat} :
    firstFault (checksOf s (.hKey alg len)) = none ↔ s.cmd.payload.length = len := by
  simp [firstFault_eq_none, checksOf, digestTooLong_eq_false]

/-- R231: a key of at most 64 bytes is used as it is, and HC is not run. -/
theorem State.shortKey_of_le (s : State) (alg : Alg) {key : ByteString} (h : key.length ≤ 64) :
    s.shortKey alg key = (s, key) :=
  if_neg (Nat.not_lt.mpr h)

/-- R231 to R234: what deriving a key leaves; a key of at most 64 bytes leaves HC, SH and the units alone. -/
theorem State.deriveKey_spec (s : State) (alg : Alg) (key : ByteString) :
    ∃ hc sh md5 sha1, s.deriveKey alg key = { s with
        hc := hc
        sh := sh
        md5 := md5
        sha1 := sha1
        kipad := xorPad (padKey (hmacKey alg key)) 0x36
        kopad := xorPad (padKey (hmacKey alg key)) 0x5C
        halg := alg
        accLen := 0
        keyed := true } ∧
      (key.length ≤ 64 → hc = s.hc ∧ sh = s.sh ∧ md5 = s.md5 ∧ sha1 = s.sha1) := by
  obtain ⟨hkey, hc, sh, md5, sha1, hscratch⟩ := s.shortKey_spec alg key
  refine ⟨hc, sh, md5, sha1, by rw [State.deriveKey, hkey, hscratch], fun hle => ?_⟩
  rw [s.shortKey_of_le alg hle] at hscratch
  exact ⟨(congrArg State.hc hscratch).symm, (congrArg State.sh hscratch).symm, (congrArg State.md5 hscratch).symm,
    (congrArg State.sha1 hscratch).symm⟩

/-- Settles O43: H_KEY checks only the payload's length, and the pads derived are those of the whole-key form. -/
theorem hKeyResult : Obligations.HKeyResult := by
  intro alg len s hp
  obtain ⟨hc, sh, md5, sha1, hderive, hshort⟩ := s.deriveKey_spec alg s.cmd.payload
  refine ⟨hc, sh, md5, sha1, _, _, ?_, xorPad_hmacKey alg s.cmd.payload 0x36, xorPad_hmacKey alg s.cmd.payload 0x5C,
    fun hle => hshort (hp.trans_le hle)⟩
  have hexec : exec (.hKey alg len) s = .next ((s.deriveKey alg s.cmd.payload).respond []) :=
    s.withChecks_of_pass _ (firstFault_hKey_eq_none.mpr hp)
  rw [hexec, hderive]
  rfl

/-! ### The message -/

/-- R29: with ACC_LEN 0 the message is empty, whatever bytes ACC holds. -/
theorem State.accMessage_of_accLen_zero {s : State} (h : s.accLen = 0) : s.accMessage = [] := by
  rw [State.accMessage, h, List.range_zero, List.map_nil]

/-- Settles O44: H_RESET on a keyed core passes its checks. -/
theorem hResetResult : Obligations.HResetResult := by
  intro s hp hkeyed
  obtain ⟨t, ht, -, -, rfl⟩ := exec_of_pass (i := .hReset) (firstFault_keyed_eq_none.mpr ⟨hp, hkeyed⟩) rfl
  exact ht

/-- Settles O45: the bytes by the law of `MemWrite` on ACC, the message by the law of appending to it. -/
theorem hUpdateResult : Obligations.HUpdateResult := by
  rintro len s rfl hkeyed hroom
  obtain ⟨t, ht, -, -, -, rfl⟩ := exec_of_pass (i := .hUpdate s.cmd.payload.length) (s := s)
    ((firstFault_eq_none _).mpr (by simpa [checksOf, hkeyed] using hroom)) rfl
  exact ⟨s.acc.writeBytes s.accLen s.cmd.payload, ht, fun j => s.acc.read?_writeBytes s.accLen j s.cmd.payload,
    s.accMessage_appendAcc s.cmd.payload⟩

/-! ### The four commands compute HMAC -/

/-- Settles O49: by the effect of each command, the pads H_KEY derives and the law of appending to the message. -/
theorem hmacCommandsComputeHmac : Obligations.HmacCommandsComputeHmac := by
  intro s t alg key _ hseq
  refine ⟨fun len h => ?hKey, fun hkey => ⟨fun len h => ?hUpdate, fun h => ?hReset, fun h => ?hDigest⟩⟩
  case hKey =>
    obtain ⟨-, hc, sh, md5, sha1, rfl⟩ := effect_of_idle hseq h
    exact ⟨⟨rfl, rfl, xorPad_hmacKey alg s.cmd.payload 0x36, xorPad_hmacKey alg s.cmd.payload 0x5C⟩,
      State.accMessage_of_accLen_zero rfl⟩
  case hUpdate =>
    obtain ⟨-, -, -, rfl⟩ := effect_of_idle hseq h
    exact ⟨hkey, s.accMessage_appendAcc s.cmd.payload⟩
  case hReset =>
    obtain ⟨-, -, rfl⟩ := effect_of_idle hseq h
    exact ⟨hkey, State.accMessage_of_accLen_zero rfl⟩
  case hDigest =>
    obtain ⟨-, -, -, hc, sh, md5, sha1, rfl⟩ := effect_of_idle hseq h
    have ⟨_, halg, hkipad, hkopad⟩ := hkey
    exact ⟨hkey, rfl, by rw [State.respond_rsp, halg, hkipad, hkopad, hmac]⟩

end Sys2Proof.Machine
end

section
/-! Proofs of the statements on the faults: the order of the checks, what a fault leaves, and FAULTED (60_exceptions). -/

namespace Sys2Proof.Machine

/-! ### The fault a command takes is the first of R271 -/

theorem map_number_firstFault_cons (failed : Bool) (code : FaultCode) (checks : List (Bool × FaultCode)) :
    (firstFault ((failed, code) :: checks)).map FaultCode.number =
      if failed = true then some code.number else (firstFault checks).map FaultCode.number := by
  cases failed <;> rfl

/-- R268: the machine's check for room and the one written out agree. -/
theorem accFull_eq_overflows (s : State) (len : Nat) : s.accFull len = overflows s (.hUpdate len) := by
  unfold State.accFull overflows
  cases s.params.accCap <;> rfl

theorem overflows_hUpdate_iff {s : State} {len : Nat} :
    overflows s (.hUpdate len) = true ↔ ∃ cap, s.params.accCap = some cap ∧ cap < s.accLen + len := by
  unfold overflows
  cases s.params.accCap <;> simp

/-- R269: no command names an algorithm whose digest exceeds 64 bytes. -/
theorem digestExceeds64_eq_false (i : Instr) : digestExceeds64 i = false := by
  cases i with
  | hKey alg len => cases alg <;> rfl
  | dInit | dReset | dUpdate | dDigest | dClone | dLen | hReset | hUpdate | hDigest => rfl

/-- R271: each command's own list of checks, which leaves out those it cannot fail, finds the fault that the six checks
in their order find. -/
theorem map_number_firstFault_checksOf (s : State) (i : Instr) :
    (firstFault (checksOf s i)).map FaultCode.number = expectedFault s i := by
  have hnil : firstFault [] = none := rfl
  simp only [expectedFault, digestExceeds64_eq_false]
  cases i with
  | dInit | dReset | dUpdate | dDigest | dClone | dLen =>
    simp [checksOf, map_number_firstFault_cons, hnil, FaultCode.number, announced, contextsNamed, contextRead, needsKey,
      overflows, State.badPayload, State.badCtx, State.invalidCtx]
  | hUpdate =>
    simp [checksOf, map_number_firstFault_cons, hnil, FaultCode.number, announced, contextsNamed, contextRead, needsKey,
      State.badPayload, State.unkeyed, accFull_eq_overflows]
  | hKey | hReset | hDigest =>
    simp [checksOf, map_number_firstFault_cons, hnil, FaultCode.number, announced, contextsNamed, contextRead, needsKey,
      overflows, State.badPayload, State.unkeyed, digestTooLong_eq_false]

/-- R270, R271: a command takes fault `n` exactly when `n` is the number of its first failing check: the effect of a
command whose checks pass answers OK. -/
theorem exec_eq_faulted_iff {i : Instr} {s : State} {n : BitVec 8} :
    exec i s = .next (s.faulted n) ↔ expectedFault s i = some n := by
  rw [← map_number_firstFault_checksOf]
  cases hf : firstFault (checksOf s i) with
  | some code =>
    rw [exec_of_fault hf, State.takeFault_faulted]
    refine ⟨fun h => ?_, fun h => by cases h; rfl⟩
    injection h with h
    exact congrArg some (congrArg State.cause h)
  | none =>
    refine iff_of_false (fun h => ?_) nofun
    cases hr : refusalOf s i with
    | some r => cases (exec_of_refusal hf hr).symm.trans h
    | none =>
      obtain ⟨t, ht, he⟩ := exec_of_pass hf hr
      cases ht.symm.trans h
      obtain ⟨-, -, -, r, hrsp⟩ := effect_status he
      simp [State.faulted] at hrsp

/-- R271: a command none of whose checks fails has its effect, if it answers a next state. -/
theorem effect_of_expectedFault_none {i : Instr} {s t : State} (hnone : expectedFault s i = none)
    (h : exec i s = .next t) : effect s t i := by
  rcases exec_cases i s t h with ⟨code, rfl⟩ | he
  · cases hnone.symm.trans (exec_eq_faulted_iff.mp h)
  · exact he

/-! ### When each check is the first that fails: by the branches of `expectedFault` -/

section firstFailing
variable {s : State} {i : Instr}

theorem expectedFault_eq_three_iff : expectedFault s i = some 3 ↔ s.cmd.payload.length ≠ announced i := by
  unfold expectedFault
  split_ifs <;> simp_all

theorem expectedFault_eq_four_iff :
    expectedFault s i = some 4 ↔
      s.cmd.payload.length = announced i ∧ ∃ k ∈ contextsNamed i, s.params.nctx ≤ k.toNat := by
  unfold expectedFault
  split_ifs <;> simp_all

theorem expectedFault_eq_five_iff :
    expectedFault s i = some 5 ↔
      s.cmd.payload.length = announced i ∧ (∀ k ∈ contextsNamed i, k.toNat < s.params.nctx) ∧
        ∃ k, contextRead i = some k ∧ (s.getCtx k).valid = false := by
  unfold expectedFault
  split_ifs <;> simp_all [Option.any_eq_true]

/-- R265 to R267: a command that needs a key names no context and reads none. -/
theorem contexts_of_needsKey (h : needsKey i = true) : contextsNamed i = [] ∧ contextRead i = none := by
  cases i with
  | hReset | hUpdate | hDigest => exact ⟨rfl, rfl⟩
  | dInit | dReset | dUpdate | dDigest | dClone | dLen | hKey => cases h

theorem expectedFault_eq_six_iff :
    expectedFault s i = some 6 ↔ s.cmd.payload.length = announced i ∧ needsKey i = true ∧ s.keyed = false := by
  unfold expectedFault
  cases hkey : needsKey i with
  | true =>
    obtain ⟨hnamed, hread⟩ := contexts_of_needsKey hkey
    rw [hnamed, hread]
    split_ifs <;> simp_all
  | false => split_ifs <;> simp_all

theorem expectedFault_hUpdate_eq_seven_iff {len : Nat} :
    expectedFault s (.hUpdate len) = some 7 ↔
      s.cmd.payload.length = len ∧ s.keyed = true ∧ ∃ cap, s.params.accCap = some cap ∧ cap < s.accLen + len := by
  rw [← overflows_hUpdate_iff]
  unfold expectedFault
  rw [digestExceeds64_eq_false]
  split_ifs <;> simp_all [announced, contextsNamed, contextRead, needsKey]

theorem expectedFault_ne_eight : expectedFault s i ≠ some 8 := by
  unfold expectedFault
  rw [digestExceeds64_eq_false]
  split_ifs <;> simp_all

end firstFailing

/-! ### The faults of a command -/

/-- Settles O17: the payload's length is checked before anything else. -/
theorem payloadLengthFaults : Obligations.PayloadLengthFaults := fun _ _ h =>
  exec_eq_faulted_iff.mpr (expectedFault_eq_three_iff.mpr h)

/-- Settles O18: the check is the next after the length's; a context number is below 16, so it cannot fail when NCTX is
16. -/
theorem contextNumberFaults : Obligations.ContextNumberFaults := by
  intro i s
  refine ⟨fun k hk hp hge => exec_eq_faulted_iff.mpr (expectedFault_eq_four_iff.mpr ⟨hp, k, hk, hge⟩), fun h16 h => ?_⟩
  obtain ⟨-, k, -, hge⟩ := expectedFault_eq_four_iff.mp (exec_eq_faulted_iff.mp h)
  exact absurd hge (Nat.not_le.mpr (h16 ▸ k.isLt))

/-- Settles O19: the check asks for the one context the command reads, so it passes when there is none, and for D_CLONE
when the source is valid. -/
theorem invalidContextFaults : Obligations.InvalidContextFaults := by
  intro i s
  have hfault := exec_eq_faulted_iff.trans (expectedFault_eq_five_iff (s := s) (i := i))
  refine ⟨fun k hk hp hnamed hv => hfault.mpr ⟨hp, hnamed, k, hk, hv⟩, fun hnone h => ?_, fun dst src hi hv h => ?_⟩
  · obtain ⟨-, -, k, hk, -⟩ := hfault.mp h
    cases hnone.symm.trans hk
  · obtain ⟨-, -, k, hk, hinvalid⟩ := hfault.mp h
    subst hi
    cases hk
    cases hv.symm.trans hinvalid

/-- Settles O20: these are the commands that need a key. -/
theorem unkeyedFaults : Obligations.UnkeyedFaults := by
  intro i s hi hp hkeyed
  have hneeds : needsKey i = true := by
    rcases hi with rfl | ⟨len, rfl⟩ | rfl <;> rfl
  exact exec_eq_faulted_iff.mpr (expectedFault_eq_six_iff.mpr ⟨hp, hneeds, hkeyed⟩)

/-- Settles O21: the check for room is made on a keyed core, and only against an ACC_CAP there is. -/
theorem accumulatorOverflowFaults : Obligations.AccumulatorOverflowFaults := by
  intro len s
  have hfault := exec_eq_faulted_iff.trans (expectedFault_hUpdate_eq_seven_iff (s := s) (len := len))
  refine ⟨fun cap hcap hp hkeyed hlt => hfault.mpr ⟨hp, hkeyed, cap, hcap, hlt⟩, fun hnone h => ?_⟩
  obtain ⟨-, -, cap, hcap, -⟩ := hfault.mp h
  cases hnone.symm.trans hcap

/-- Settles O22: the check is written out for both algorithms and fails for neither. -/
theorem digestNeverTooLong : Obligations.DigestNeverTooLong :=
  ⟨fun alg => Nat.not_lt.mp (of_decide_eq_false (digestTooLong_eq_false alg)),
    fun _ _ h => expectedFault_ne_eight (exec_eq_faulted_iff.mp h)⟩

/-! ### The fault of a transaction -/

theorem step_of_pending {s : State} {act : HostAct} {rest : List HostAct} (hp : s.pending = act :: rest) :
    step s = ({ s with pending := rest } : State).carryOut act := by
  simp only [step, State.takeAct, hp]

/-- R97: in IDLE a transaction is decoded and run at the port. -/
theorem step_of_command {s : State} {tr : Transaction} {rest : List HostAct} (hp : s.pending = .command tr :: rest)
    (hseq : s.seq = .idle) : step s = (s.atPort tr rest).runCommand :=
  (step_of_pending hp).trans (State.present_of_idle (s := { s with pending := rest }) hseq tr)

/-- R270, R271: the fault of a transaction is that of its word, or else that of its command. -/
theorem State.runCommand_of_portFault {s : State} {n : BitVec 8} (h : expectedPortFault s = some n) :
    s.runCommand = .next (s.faulted n) := by
  unfold expectedPortFault at h
  unfold State.runCommand
  cases hd : decode s.cmd.cw with
  | command i => rw [hd] at h; exact exec_eq_faulted_iff.mpr h
  | illegalOpc => rw [hd] at h; cases h; rfl
  | reserved => rw [hd] at h; cases h; rfl

/-- R271: a transaction none of whose checks fails leaves SEQ as it was. -/
theorem State.runCommand_seq {s t : State} (hnone : expectedPortFault s = none) (h : s.runCommand = .next t) :
    t.seq = s.seq := by
  unfold expectedPortFault at hnone
  unfold State.runCommand at h
  cases hd : decode s.cmd.cw with
  | command i =>
    rw [hd] at h hnone
    exact (effect_status (effect_of_expectedFault_none hnone h)).1
  | illegalOpc | reserved => rw [hd] at hnone; cases hnone

/-- Settles O16: the word's two checks, then the command's. -/
theorem faultOrder : Obligations.FaultOrder := by
  intro s tr rest hp hseq
  rw [step_of_command hp hseq]
  split
  · next n hn => exact State.runCommand_of_portFault hn
  · next hnone => exact fun t h => (State.runCommand_seq hnone h).trans hseq

/-- Settles O7: such a word is the first outcome of the decoder that is no command. -/
theorem illegalOpcodeFaults : Obligations.IllegalOpcodeFaults := by
  intro s tr rest hp hseq hopc
  obtain ⟨-, -, hillegal, -⟩ := everyWordHasOneOutcome tr.cw
  rw [step_of_command hp hseq]
  exact State.runCommand_of_portFault (by rw [expectedPortFault, State.atPort_cmd, hillegal.mpr hopc])

/-- Settles O8: such a word is the decoder's other outcome that is no command, and the row with OPC's value as its match
is that of the command OPC names. -/
theorem reservedFieldFaults : Obligations.ReservedFieldFaults := by
  intro s tr rest hp hseq hopc
  refine ⟨fun hstray => ?_, fun row hrow hmatch => ?_⟩
  · obtain ⟨-, -, -, hreserved⟩ := everyWordHasOneOutcome tr.cw
    rw [step_of_command hp hseq]
    exact State.runCommand_of_portFault (by rw [expectedPortFault, State.atPort_cmd, hreserved.mpr ⟨hopc, hstray⟩])
  · obtain ⟨i, hi⟩ := (opcodeLegal_iff tr.cw).mp hopc
    have hsame : row = (rowMatch i, rowMask i) :=
      opcodeRow_inj hrow (row_mem_opcodeRows i) (hmatch.symm.trans (opcode_of_namedCommand hi))
    rw [hsame]
    exact strayBit_iff hi

/-! ### What a fault leaves, and FAULTED -/

/-- R270: a step from IDLE to FAULTED is a transaction that took a fault. -/
theorem step_enters_faulted {s t : State} (h : step s = .next t) (hs : s.seq = .idle) (ht : t.seq = .faulted) :
    ∃ tr rest n, s.pending = .command tr :: rest ∧ t = (s.atPort tr rest).faulted n := by
  rcases step_cases s t h with ⟨-, rfl⟩ | ⟨_, _, -, hq, -⟩ | ⟨tr, rest, i, hp, -, -, he⟩ | ⟨tr, rest, hp, -, -, rfl⟩ |
    ⟨tr, rest, hp, -, -, rfl⟩ | ⟨_, _, -, -, rfl⟩ | ⟨n, rest, -, rfl⟩
  · cases hs.symm.trans ht
  · cases hs.symm.trans hq
  · rcases exec_cases i _ t he with ⟨code, rfl⟩ | he
    · exact ⟨tr, rest, code.number, hp, rfl⟩
    · cases (hs.symm.trans (effect_status he).1.symm).trans ht
  · exact ⟨tr, rest, 1, hp, rfl⟩
  · exact ⟨tr, rest, 2, hp, rfl⟩
  · cases ht
  · cases hs.symm.trans ht

/-- Settles O23: a fault entry writes none of this. -/
theorem faultsArePrecise : Obligations.FaultsArePrecise := by
  intro s t h hs ht
  obtain ⟨tr, rest, n, -, rfl⟩ := step_enters_faulted h hs ht
  exact ⟨rfl, rfl, rfl, rfl, rfl, rfl, rfl, rfl, rfl, rfl, rfl, rfl, rfl, rfl, rfl⟩

/-- Settles O24: of what a step can do in FAULTED, only a reset writes more than the ports. -/
theorem onlyResetLeavesFaulted : Obligations.OnlyResetLeavesFaulted := by
  intro s t h hs
  rcases step_cases s t h with ⟨-, rfl⟩ | ⟨_, _, -, -, rfl⟩ | ⟨_, _, _, -, hq, -⟩ | ⟨_, _, -, hq, -⟩ | ⟨_, _, -, hq, -⟩ |
    ⟨act, rest, hp, hr, -⟩ | ⟨_, _, -, rfl⟩
  · exact .inr ⟨hs, rfl, rfl, rfl, rfl, rfl, rfl, rfl, rfl, rfl⟩
  · exact .inr ⟨hs, rfl, rfl, rfl, rfl, rfl, rfl, rfl, rfl, rfl⟩
  · cases hs.symm.trans hq
  · cases hs.symm.trans hq
  · cases hs.symm.trans hq
  · exact .inl ⟨act, rest, hp, hr⟩
  · exact .inr ⟨hs, rfl, rfl, rfl, rfl, rfl, rfl, rfl, rfl, rfl⟩

/-- Settles O9: a transaction meets FAULTED before the decoder, and a status read does not look at SEQ. -/
theorem faultedRefusesCommands : Obligations.FaultedRefusesCommands := by
  intro s rest hseq
  refine ⟨fun tr hp => ?_, fun n hp => ?_⟩
  · exact (step_of_pending hp).trans (State.present_of_faulted (s := { s with pending := rest }) hseq tr)
  · rw [statusReadReturnsRegister s n rest hp, State.statRead_eq_ite]

end Sys2Proof.Machine
end
